-- ==== Sys2Proof/Word.lean ====
section
/-! DEFINITION. The widths of the engine's data (00_scope.md R5, R8): bytes, words, command beats.
All values are unsigned; bit 0 is the least significant bit. -/

namespace Sys2Proof

/-- A byte: 8 bits (R8). -/
abbrev Byte := BitVec 8

/-- A word of the hash computation: `WORD` = 32 bits, unsigned (R5). -/
abbrev Word := BitVec 32

/-- One command beat: `BEATW` = 10 bits (R5, 30_encoding.md R82). -/
abbrev Beat := BitVec 10

end Sys2Proof
end

