-- ==== Sys2Proof/Syntax.lean ====
section
/-! DEFINITION. The commands of the engine, one constructor per row of spec/opcode_table.json
(30_encoding.md R83). -/

namespace Sys2Proof

/-- The four commands a beat can carry (R83). The only operand is ABSORB's data byte (R84). -/
inductive Instr where
  /-- NOP: the idle beat (42_commands.md R141). -/
  | nop
  /-- INIT: the source's Construct (42_commands.md R142). -/
  | init
  /-- ABSORB b: the source's `update` with the one byte `b` (42_commands.md R143). -/
  | absorb (b : Byte)
  /-- FINALIZE: padding, length field and last compression (42_commands.md R146). -/
  | finalize
  deriving DecidableEq, Repr

end Sys2Proof
end

