-- ==== Sys2Proof/WellFormed.lean ====
section
/-! DEFINITION. Well-formedness. A command's only operand is a byte of which "every value 0..255 is legal"
(30_encoding.md R84), and the type `Byte` holds exactly those values, so every command is well-formed. What can
be ill-formed is a beat the host presents: the reserved values of R85 (the host's rule is 70_reset_and_hazards.md
R199). They are written here from R85's list of ranges, independently of the decoder. -/

namespace Sys2Proof

/-- Every command the type can express is one the spec defines (R83, R84). -/
def Instr.wellFormed : Instr → Bool
  | .nop => true
  | .init => true
  | .absorb _ => true
  | .finalize => true

/-- The reserved beats of R85: `0x001`..`0x0FF`, `0x101`..`0x1FF`, `0x301`..`0x3FF`. -/
def Beat.reserved (w : Beat) : Bool :=
  (0x001 ≤ w.toNat && w.toNat ≤ 0x0FF) ||
  (0x101 ≤ w.toNat && w.toNat ≤ 0x1FF) ||
  (0x301 ≤ w.toNat && w.toNat ≤ 0x3FF)

/-- A beat the host may send (R199): one of the 259 defined values. -/
def Beat.wellFormed (w : Beat) : Bool := !Beat.reserved w

end Sys2Proof
end

