-- ==== Sys2Proof/Decode.lean ====
section
/-! DEFINITION. The binary encoding of the commands (30_encoding.md R82 to R88): fields of a beat, the decoder
(total on all 1024 values), the encoder, the opcode map with its masks, and the pseudo-instructions. -/

namespace Sys2Proof

/-- Field `op`, bits 9:8 (R82). -/
def Beat.op (w : Beat) : BitVec 2 := w.extractLsb' 8 2

/-- Field `imm8`, bits 7:0 (R82): ABSORB's data byte, stored unchanged (R84). -/
def Beat.imm8 (w : Beat) : Byte := w.extractLsb' 0 8

/-- What a beat decodes to (R86). -/
inductive Decoded where
  /-- a defined command -/
  | command (i : Instr)
  /-- a reserved beat (R85): the engine raises IllegalBeat (60_exceptions.md R172) -/
  | illegal
  deriving DecidableEq, Repr

/-- The decode function of R86, test by test in its order. -/
def decode (w : Beat) : Decoded :=
  if Beat.op w = 0b10 then .command (.absorb (Beat.imm8 w))
  else if Beat.imm8 w ≠ 0 then .illegal
  else if Beat.op w = 0b00 then .command .nop
  else if Beat.op w = 0b01 then .command .init
  else .command .finalize

/-- `encode` of R86. -/
def encode : Instr → Beat
  | .nop => 0x000
  | .init => 0x100
  | .absorb b => 0x200 + b.setWidth 10
  | .finalize => 0x300

/-- One row of the opcode map (R83). -/
structure OpcodeRow where
  mnemonic : String
  pattern : Beat
  mask : Beat
  deriving DecidableEq, Repr

/-- The opcode map of R83, in its order. -/
def opcodeMap : List OpcodeRow :=
  [⟨"NOP", 0x000, 0x3FF⟩, ⟨"INIT", 0x100, 0x3FF⟩, ⟨"ABSORB", 0x200, 0x300⟩, ⟨"FINALIZE", 0x300, 0x3FF⟩]

/-- "A beat `w` selects the row whose `w AND mask = match`" (R83). -/
def OpcodeRow.selects (r : OpcodeRow) (w : Beat) : Bool := w &&& r.mask == r.pattern

/-- The mnemonic of a command, as the opcode map spells it (R83). -/
def Instr.mnemonic : Instr → String
  | .nop => "NOP"
  | .init => "INIT"
  | .absorb _ => "ABSORB"
  | .finalize => "FINALIZE"

/-- The beat whose bits are `w` (bit 0 of the table is bit 0 of the beat, R82), read from `nbits` bits. A value that
needs more than the port's 10 bits is no beat. -/
def beatOfBits (nbits w : Nat) : Option Beat :=
  if w % 2 ^ nbits < 2 ^ 10 then some (BitVec.ofNat 10 (w % 2 ^ nbits)) else none

/-- The decoder applied to an opcode-table word. -/
def decodeTableWord (nbits w : Nat) : Option Instr :=
  match beatOfBits nbits w with
  | none => none
  | some b =>
    match decode b with
    | .command i => some i
    | .illegal => none

/-- The pseudo-instruction `UPDATE b0, ..., b(n-1)`: one ABSORB per byte, in order, no beat at all for no bytes (R88). -/
def updateCommands (data : List Byte) : List Instr := data.map Instr.absorb

/-- The pseudo-instruction `HASH data`: INIT, UPDATE data, FINALIZE (R88). -/
def hashCommands (data : List Byte) : List Instr := .init :: (updateCommands data ++ [.finalize])

end Sys2Proof
end

