-- ==== Sys2Proof/Machine/State.lean ====
section
/-! DEFINITION. The architectural state of one engine (10_state.md R20), the events it takes, the ways a step can
stop (none), and the state after reset (10_state.md R37, 70_reset_and_hazards.md R190). -/

namespace Sys2Proof.Machine

/-- The 64-byte block buffer (10_state.md R23, 20_memory.md R58) as a list of cells in one canonical form: offsets
strictly rising, all below 64, and no cell listed that holds `0x00`, which is what an unlisted offset reads as (the
reset contents, 10_state.md R37, decision D8). -/
abbrev Memory := List Host.Cell

/-- The canonical form of the cells at offsets `lo` and above. -/
def Memory.wfFrom : Nat → Memory → Bool
  | _, [] => true
  | lo, (k, v) :: m => decide (lo ≤ k) && decide (k < 64) && decide (v ≠ 0#8) && Memory.wfFrom (k + 1) m

/-- The canonical form of the block buffer. -/
def Memory.wf (m : Memory) : Bool := Memory.wfFrom 0 m

/-- The two faults of 60_exceptions.md R170 (the causes; the register is `State.fault`). -/
inductive FaultCause where
  /-- raised by ABSORB and FINALIZE when `finalized = 1` (R171) -/
  | useAfterFinalize
  /-- raised by a reserved beat (R172) -/
  | illegalBeat
  deriving DecidableEq, Repr

/-- What the outside world does at the ports (30_encoding.md R81): the environment raises `rst`, or the host has a
beat accepted at `cmd`. -/
inductive Event where
  /-- the hardware reset event (70_reset_and_hazards.md R190) -/
  | reset
  /-- an accepted beat -/
  | beat (w : Beat)
  deriving DecidableEq, Repr

/-- The state of the engine (10_state.md R20, in its order), and two fields of the model's own. -/
structure State where
  /-- `state[0..7]`, the running intermediate hash value (R21) -/
  state : HashWords
  /-- `total_length`, 64 bits, wrapping (R22) -/
  totalLength : BitVec 64
  /-- `block_buffer[0..63]` (R23) -/
  blockBuffer : Memory
  /-- `block_fill`, 6 bits, the write pointer (R24); the value 64 exists only inside a command (assumption 11) -/
  blockFill : BitVec 6
  /-- `finalized` (R25) -/
  finalized : Bool
  /-- `fault`, the 2-bit sticky cause register (R26) -/
  fault : BitVec 2
  /-- THE MODEL'S OWN (assumption 2): the accepted beats and reset events still to come, in order (30_encoding.md R81) -/
  input : List Event
  /-- THE MODEL'S OWN (assumption 3): the index of the free value the `digest` port shows while it is not valid -/
  digestDraw : Nat
  deriving DecidableEq, Repr

/-- The ways a step can stop the machine: NONE. The spec's faults are next states with `State.fault` latched
(60_exceptions.md R173; assumption 1), every buffer access is in range by its type (20_memory.md R59), and the
decoder is total (30_encoding.md R85). Having no constructor is safe: no step can stop where the engine goes on. -/
inductive Fault where
  deriving DecidableEq, Repr

/-- The refusals. -/
inductive Refusal where
  /-- An arm of `exec` whose command has no meaning yet. No arm answers with it: every command is modelled. Safe. -/
  | notModelled (mnemonic : String)
  deriving DecidableEq, Repr

/-- The state right after a hardware reset: the fresh state with `fault = 0` (10_state.md R37, 70_reset_and_hazards.md
R190). The two fields of the model's own start empty and at 0 (DESIGN CHOICE, assumptions 2 and 3). -/
def State.reset : State where
  state := tableH
  totalLength := 0
  blockBuffer := []
  blockFill := 0
  finalized := false
  fault := 0
  input := []
  digestDraw := 0

end Sys2Proof.Machine
end

