-- ==== Sys2Proof/Machine/Ops.lean ====
section
/-! DEFINITION. The named operations every command is built from: the cells of the block buffer (20_memory.md R50,
R57, R59), the entry tests of a beat (42_commands.md R140), taking a fault (60_exceptions.md R173), the fresh state
(10_state.md R37), the hardware reset (70_reset_and_hazards.md R190) and the next event of the input. The engine has
no return from a fault (60_exceptions.md R177): a hardware reset is the only way out. -/

namespace Sys2Proof.Machine

/-- What one step of this machine answers. -/
abbrev StepOutcome := Host.Outcome State Fault Refusal

/-! ### Cells of the block buffer -/

/-- The byte at a key; a key that is not listed reads as `0x00` (10_state.md R37). -/
def cellRead : Memory → Nat → Byte
  | [], _ => 0#8
  | (k, v) :: m, a => if k = a then v else cellRead m a

/-- Writes a byte at a key and keeps the canonical form: writing `0x00` removes the cell. -/
def cellWrite : Memory → Nat → Byte → Memory
  | [], a, b => if b = 0#8 then [] else [(a, b)]
  | (k, v) :: m, a, b =>
    if a < k then (if b = 0#8 then (k, v) :: m else (a, b) :: (k, v) :: m)
    else if a = k then (if b = 0#8 then m else (a, b) :: m)
    else (k, v) :: cellWrite m a b

/-- `buf[a]` (20_memory.md R50): the offset is 0..63 by its type (R59). -/
def bufRead (m : Memory) (a : Fin 64) : Byte := cellRead m a.val

/-- `buf[a] <- b` (20_memory.md R57). -/
def bufWrite (m : Memory) (a : Fin 64) (b : Byte) : Memory := cellWrite m a.val b

/-- The buffer offsets `lo` to `hi` inclusive, ascending; none when `lo > hi` (00_scope.md R11). -/
def offsets (lo hi : Nat) : List (Fin 64) := (List.finRange 64).filter fun a => lo ≤ a.val && a.val ≤ hi

/-- `for i in lo..hi: buf[i] <- 0x00` (20_memory.md R57, zero fill). -/
def zeroFill (m : Memory) (lo hi : Nat) : Memory := (offsets lo hi).foldl (fun m a => bufWrite m a 0#8) m

/-- The implicit address of the next byte, `block_fill` (10_state.md R24, 42_commands.md R143). -/
def fillOffset (s : State) : Fin 64 := ⟨s.blockFill.toNat, s.blockFill.isLt⟩

/-! ### Faults -/

/-- The code of a fault (60_exceptions.md R170). -/
def FaultCause.code : FaultCause → BitVec 2
  | .useAfterFinalize => 1#2
  | .illegalBeat => 2#2

/-- `raise F` (60_exceptions.md R173): the code is latched and nothing else changes. -/
def raise (f : FaultCause) (s : State) : State := { s with fault := f.code }

/-- The engine is halted: `fault != 0` (10_state.md R26). -/
def halted (s : State) : Bool := s.fault != 0#2

/-- Line 1 of 42_commands.md R140: a halted engine discards the beat. -/
def unlessHalted (s : State) (k : State → StepOutcome) : StepOutcome :=
  if halted s then .next s else k s

/-- Line 4 of 42_commands.md R140: ABSORB and FINALIZE check `finalized` at entry (60_exceptions.md R171). -/
def unlessFinalized (s : State) (k : State → StepOutcome) : StepOutcome :=
  if s.finalized then .next (raise .useAfterFinalize s) else k s

/-- Line 3 of 42_commands.md R140: a reserved beat, in any phase but HALT (60_exceptions.md R172). -/
def rejectBeat (s : State) : StepOutcome := unlessHalted s fun s => .next (raise .illegalBeat s)

/-! ### Fresh state, reset, events -/

/-- The fresh state of 10_state.md R37, written by INIT and by reset; `fault` is not touched. -/
def fresh (s : State) : State :=
  { s with state := tableH, totalLength := 0, blockFill := 0, blockBuffer := [], finalized := false }

/-- The hardware reset event (70_reset_and_hazards.md R190): fresh, and `fault <- 0`. -/
def hardwareReset (s : State) : State := { fresh s with fault := 0#2 }

/-- The state with the first event taken and `rest` left of the input; the digest draw moves on with it
(assumption 3). -/
def consumed (rest : List Event) (s : State) : State := { s with input := rest, digestDraw := s.digestDraw + 1 }

/-- Takes the next event of the input (30_encoding.md R81). -/
def takeEvent (s : State) : Option (Event × State) :=
  match s.input with
  | [] => none
  | e :: rest => some (e, consumed rest s)

end Sys2Proof.Machine
end

