-- ==== Sys2Proof/Machine/Operands.lean ====
section
/-! DEFINITION. Byte order and the access forms of the block buffer: the big-endian functions (00_scope.md R10),
MemRead and MemWrite (00_scope.md R11), blocks as byte sequences (00_scope.md R9), the length field
(42_commands.md R148). -/

namespace Sys2Proof.Machine

/-- `BE32`: four bytes to a word, most significant first (R10). -/
def be32 (b0 b1 b2 b3 : Byte) : Word := b0 ++ b1 ++ b2 ++ b3

/-- `be32_bytes`: a word to four bytes (R10). -/
def be32Bytes (w : Word) : List Byte :=
  [w.extractLsb' 24 8, w.extractLsb' 16 8, w.extractLsb' 8 8, w.extractLsb' 0 8]

/-- `be64_bytes`: a 64-bit value to eight bytes (R10). -/
def be64Bytes (n : BitVec 64) : List Byte :=
  [n.extractLsb' 56 8, n.extractLsb' 48 8, n.extractLsb' 40 8, n.extractLsb' 32 8,
   n.extractLsb' 24 8, n.extractLsb' 16 8, n.extractLsb' 8 8, n.extractLsb' 0 8]

/-- A block: a byte sequence of length exactly 64 (R9). -/
abbrev Block := Vector Byte 64

/-- The block whose bytes are the first 64 of a sequence (used on sequences of at least 64 bytes). -/
def blockOfBytes (l : List Byte) : Block := Vector.ofFn fun i : Fin 64 => l.getD i.val 0

/-- The successive 64-byte chunks of a sequence, left to right (41_compression.md R128); bytes after the last whole
chunk are in none. -/
def blocksOf (x : List Byte) : List Block :=
  (List.range (x.length / 64)).map fun k => blockOfBytes (x.drop (64 * k))

/-- The whole buffer as a block, which is how COMPRESS(buf) reads it (20_memory.md R50). -/
def bufBlock (m : Memory) : Block := Vector.ofFn fun i : Fin 64 => bufRead m i

/-- `MemRead(addr, n)` (R11): the unsigned `8n`-bit value of `n` bytes, `buf[addr]` the most significant. -/
def memRead (m : Memory) (addr n : Nat) (h : addr + n ≤ 64) : BitVec (8 * n) :=
  BitVec.ofNat (8 * n)
    ((List.finRange n).foldl (fun acc k => acc * 256 + (bufRead m ⟨addr + k.val, by omega⟩).toNat) 0)

/-- `MemWrite(addr, n, v)` (R11): the `n` bytes of `v`, most significant first, to `buf[addr]` and on. -/
def memWrite (m : Memory) (addr n : Nat) (v : BitVec (8 * n)) (h : addr + n ≤ 64) : Memory :=
  (List.finRange n).foldl
    (fun m k => bufWrite m ⟨addr + k.val, by omega⟩ (v.extractLsb' (8 * (n - 1 - k.val)) 8)) m

/-- A run of byte writes at consecutive offsets from `off` (20_memory.md R57, burst UPDATE). The run ends at the
buffer's end; no rule asks for more (R59). -/
def storeRun : Memory → Nat → List Byte → Memory
  | m, _, [] => m
  | m, off, b :: bs => if h : off < 64 then storeRun (bufWrite m ⟨off, h⟩ b) (off + 1) bs else m

/-- `L = (total_length * 8) mod 2^64` (42_commands.md R148). -/
def lengthField (s : State) : BitVec 64 := s.totalLength * 8

end Sys2Proof.Machine
end

