-- ==== Sys2Proof/Machine/WordFunctions.lean ====
section
/-! DEFINITION. The twelve 32-bit word functions (40_word_functions.md R100 to R111). They read and write no state,
set no flag and raise no fault. The source's spellings S0, S1, s0, s1 become bigS0, bigS1, smallS0, smallS1. -/

namespace Sys2Proof.Machine

/-- `x +32 y` (R100): the carry out of bit 31 is dropped. -/
def add32 (x y : Word) : Word := x + y

/-- `rotr(x, n)`, circular (R102); used with the amounts of R111 only. -/
def rotr (x : Word) (n : Nat) : Word := (x >>> n) ||| (x <<< (32 - n))

/-- `shr(x, n)`, logical (R103). -/
def shr (x : Word) (n : Nat) : Word := x >>> n

/-- `xor` (R104). -/
def xor32 (x y : Word) : Word := x ^^^ y

/-- `and` (R104). -/
def and32 (x y : Word) : Word := x &&& y

/-- `not`, within 32 bits (R104). -/
def not32 (x : Word) : Word := ~~~x

/-- `Ch(e, f, g)` (R105). -/
def ch (e f g : Word) : Word := xor32 (and32 e f) (and32 (not32 e) g)

/-- `Maj(a, b, c)` (R106). -/
def maj (a b c : Word) : Word := xor32 (xor32 (and32 a b) (and32 a c)) (and32 b c)

/-- `S0` (R107). -/
def bigS0 (a : Word) : Word := xor32 (xor32 (rotr a 2) (rotr a 13)) (rotr a 22)

/-- `S1` (R108). -/
def bigS1 (e : Word) : Word := xor32 (xor32 (rotr e 6) (rotr e 11)) (rotr e 25)

/-- `s0` (R109): the third term is a shift. -/
def smallS0 (x : Word) : Word := xor32 (xor32 (rotr x 7) (rotr x 18)) (shr x 3)

/-- `s1` (R110): the third term is a shift. -/
def smallS1 (x : Word) : Word := xor32 (xor32 (rotr x 17) (rotr x 19)) (shr x 10)

end Sys2Proof.Machine
end

