-- ==== Sys2Proof/Machine/Compression.lean ====
section
/-! DEFINITION. The message-schedule expander, the round function and the block compression (41_compression.md R122
to R130). Pure functions: they set no flag and raise no fault (R129). `W` and `a`..`h` are transient, so they are
local values here (10_state.md R27, R28). -/

namespace Sys2Proof.Machine

/-- The message schedule `W[0..63]` (10_state.md R28). -/
abbrev Schedule := Vector Word 64

/-- The working variables `a`..`h` (10_state.md R27). -/
structure Work where
  (a b c d e f g h : Word)
  deriving DecidableEq, Repr

/-- `word(B, i)` for `i` in 0..15, big-endian (20_memory.md R52). -/
def blockWord (B : Block) (i : Fin 16) : Word :=
  be32 (B[4 * i.val]) (B[4 * i.val + 1]) (B[4 * i.val + 2]) (B[4 * i.val + 3])

/-- SCHED.LOAD (R122): writes `W[0..15]`. The other entries are written by SCHED.EXPAND before anything reads them;
what stands here for them is read by nothing. -/
def schedLoad (B : Block) : Schedule :=
  Vector.ofFn fun i : Fin 64 => if h : i.val < 16 then blockWord B ⟨i.val, h⟩ else 0

/-- The entry `W[i]` for `i` in 16..63 from the sixteen before it (R123). -/
def schedEntry (W : Schedule) (i : Nat) (lo : 16 ≤ i) (hi : i < 64) : Word :=
  add32 (add32 (add32 W[i - 16] (smallS0 W[i - 15])) W[i - 7]) (smallS1 W[i - 2])

/-- The first `n` writes of SCHED.EXPAND, in ascending order of `i` (R123). -/
def schedExpandSteps : (n : Nat) → n ≤ 48 → Schedule → Schedule
  | 0, _, W => W
  | n + 1, hn, W =>
    let W' := schedExpandSteps n (by omega) W
    W'.set (16 + n) (schedEntry W' (16 + n) (by omega) (by omega))

/-- SCHED.EXPAND (R123): `W[16..63]`. -/
def schedExpand (W : Schedule) : Schedule := schedExpandSteps 48 (by omega) W

/-- The whole schedule of a block (R122, R123). -/
def schedule (B : Block) : Schedule := schedExpand (schedLoad B)

/-- ROUND.INIT (R124). -/
def roundInit (x : HashWords) : Work := ⟨x[0], x[1], x[2], x[3], x[4], x[5], x[6], x[7]⟩

/-- One round with its constant and its schedule word: all eight new values from the eight old ones (R125). -/
def roundWith (k w : Word) (v : Work) : Work :=
  let t1 := add32 (add32 (add32 (add32 v.h (bigS1 v.e)) (ch v.e v.f v.g)) k) w
  let t2 := add32 (bigS0 v.a) (maj v.a v.b v.c)
  ⟨add32 t1 t2, v.a, v.b, v.c, add32 v.d t1, v.e, v.f, v.g⟩

/-- ROUND(i) (R125). -/
def roundAt (W : Schedule) (i : Fin 64) (v : Work) : Work := roundWith tableK[i.val] W[i.val] v

/-- The first `n` rounds, ascending (R127). -/
def rounds (W : Schedule) : (n : Nat) → n ≤ 64 → Work → Work
  | 0, _, v => v
  | n + 1, hn, v => roundAt W ⟨n, by omega⟩ (rounds W n (by omega) v)

/-- STATE.UPDATE (R126), element-wise. -/
def stateUpdate (x : HashWords) (v : Work) : HashWords :=
  #v[add32 x[0] v.a, add32 x[1] v.b, add32 x[2] v.c, add32 x[3] v.d,
     add32 x[4] v.e, add32 x[5] v.f, add32 x[6] v.g, add32 x[7] v.h]

/-- `compress(state, B)` (R127): schedule, 64 rounds, state update. -/
def compress (x : HashWords) (B : Block) : HashWords :=
  stateUpdate x (rounds (schedule B) 64 (by omega) (roundInit x))

/-- `PROCESS` over a list of blocks, the state carried forward (R128). -/
def processBlocks (x : HashWords) (bs : List Block) : HashWords := bs.foldl compress x

/-- `PROCESS(S, X)` (R128), for `X` of a length that is a multiple of 64. -/
def process (x : HashWords) (bytes : List Byte) : HashWords := processBlocks x (blocksOf bytes)

/-- COMPRESS(buf) on the machine's state: it reads `state` and the buffer and writes `state` only (R127, R129). -/
def compressBuffer (s : State) : State := { s with state := compress s.state (bufBlock s.blockBuffer) }

/-! ### The permitted windowed schedule (R130) -/

/-- The sixteen schedule words from `W[i]` on. -/
abbrev Window := Vector Word 16

/-- The window of a block before round 0: `W[0..15]`. -/
def windowLoad (B : Block) : Window := Vector.ofFn fun i : Fin 16 => blockWord B i

/-- Discards `W[i]` and appends `W[i + 16]` (R130, with R123's recurrence). -/
def windowStep (w : Window) : Window :=
  Vector.ofFn fun i : Fin 16 =>
    if h : i.val < 15 then w[i.val + 1]
    else add32 (add32 (add32 w[0] (smallS0 w[1])) w[9]) (smallS1 w[14])

/-- The first `n` rounds with the window moved along. -/
def windowedRounds (x : HashWords) (B : Block) : (n : Nat) → n ≤ 64 → Window × Work
  | 0, _ => (windowLoad B, roundInit x)
  | n + 1, hn =>
    let p := windowedRounds x B n (by omega)
    (windowStep p.1, roundWith tableK[n] p.1[0] p.2)

/-- The block compression of an implementation that keeps 16 schedule words (R130). -/
def compressWindowed (x : HashWords) (B : Block) : HashWords :=
  stateUpdate x (windowedRounds x B 64 (by omega)).2

end Sys2Proof.Machine
end

