-- ==== Sys2Proof/Machine/Hash.lean ====
section
/-! DEFINITION. The commands of the hash computation: ABSORB (42_commands.md R143) and FINALIZE with its padding state
machine (R146, R147, R148); the padded blocks as byte layouts (R147); the blocks a command compresses (R203). -/

namespace Sys2Proof.Machine

/-! ### ABSORB -/

/-- The count of ABSORB: `total_length <- (total_length + 1) mod 2^64` (R143). -/
def countByte (s : State) : State := { s with totalLength := s.totalLength + 1 }

/-- The store of ABSORB: `buf[block_fill] <- b`, post-increment, flush at 64 (R143). -/
def storeByte (b : Byte) (s : State) : State :=
  let t := { s with blockBuffer := bufWrite s.blockBuffer (fillOffset s) b }
  let fill := s.blockFill.toNat + 1
  if fill = 64 then { compressBuffer t with blockFill := 0 } else { t with blockFill := BitVec.ofNat 6 fill }

/-- The effect of ABSORB on an engine that accepts data (R143). -/
def absorbByte (b : Byte) (s : State) : State := storeByte b (countByte s)

/-- ABSORB b (R143): discarded when halted, UseAfterFinalize when finalized (R140, 60_exceptions.md R171). -/
def execAbsorb (b : Byte) (s : State) : StepOutcome :=
  unlessHalted s fun s => unlessFinalized s fun s => .next (absorbByte b s)

/-! ### FINALIZE: the padding sub-steps of R147 -/

/-- PAD_MARK: `MemWrite(block_fill, 1, 0x80)`. -/
def padMark (s : State) : State :=
  { s with blockBuffer :=
      memWrite s.blockBuffer (fillOffset s).val 1 0x80 (Nat.succ_le_of_lt (fillOffset s).isLt) }

/-- PAD_ZERO: zeros after the marker, up to offset 55 when the length still fits, else up to 63. -/
def padZero (s : State) : State :=
  { s with blockBuffer :=
      zeroFill s.blockBuffer (s.blockFill.toNat + 1) (if s.blockFill.toNat ≤ 55 then 55 else 63) }

/-- PAD_FLUSH1: the first compression of the two-block path. -/
def padFlush1 (s : State) : State := compressBuffer s

/-- PAD_ZERO2: zeros at offsets 0..55 of the second block. -/
def padZero2 (s : State) : State := { s with blockBuffer := zeroFill s.blockBuffer 0 55 }

/-- PAD_LEN: `MemWrite(56, 8, L)`, big-endian (20_memory.md R53). -/
def padLen (s : State) : State := { s with blockBuffer := memWrite s.blockBuffer 56 8 (lengthField s) (by omega) }

/-- PAD_FLUSH: the last compression. -/
def padFlush (s : State) : State := compressBuffer s

/-- PAD_DONE: `finalized <- 1`. -/
def padDone (s : State) : State := { s with finalized := true }

/-- The effect of FINALIZE on an engine that accepts data (R146): one block when `block_fill <= 55`, else two. -/
def finalizeMessage (s : State) : State :=
  if s.blockFill.toNat ≤ 55 then padDone (padFlush (padLen (padZero (padMark s))))
  else padDone (padFlush (padLen (padZero2 (padFlush1 (padZero (padMark s))))))

/-- FINALIZE (R146): discarded when halted, UseAfterFinalize when finalized (R140, 60_exceptions.md R171). -/
def execFinalize (s : State) : StepOutcome :=
  unlessHalted s fun s => unlessFinalized s fun s => .next (finalizeMessage s)

/-! ### Layouts and counts, for claims -/

/-- The live bytes `buf[0 .. block_fill)` (10_state.md R23). -/
def liveBytes (s : State) : List Byte :=
  (List.range s.blockFill.toNat).map fun a => cellRead s.blockBuffer a

/-- The bytes FINALIZE appends to a message of `n` bytes whose length field is `len`: the marker, `z` zeros with
`z = (55 - n) mod 64`, the length field (R147, R149). -/
def padding (n : Nat) (len : BitVec 64) : List Byte :=
  0x80 :: (List.replicate ((119 - n % 64) % 64) 0 ++ be64Bytes len)

/-- The padded message of R149: `M ++ [0x80] ++ zeros(z) ++ be64_bytes(8 * |M|)`. -/
def paddedMessage (msg : List Byte) : List Byte :=
  msg ++ padding msg.length (BitVec.ofNat 64 (8 * msg.length))

/-- The blocks a command compresses when it executes, in order (R143, R147): their number is the work of
70_reset_and_hazards.md R203. -/
def commandBlocks : Instr → State → List Block
  | .nop, _ => []
  | .init, _ => []
  | .absorb b, s => if s.blockFill.toNat = 63 then [blockOfBytes (liveBytes s ++ [b])] else []
  | .finalize, s => blocksOf (liveBytes s ++ padding s.blockFill.toNat (lengthField s))

end Sys2Proof.Machine
end

