-- ==== Sys2Proof/Machine/System.lean ====
section
/-! DEFINITION. The commands that are not part of the hash computation: NOP and INIT (42_commands.md R141, R142,
R152). -/

namespace Sys2Proof.Machine

/-- NOP (R141): every field of the state is unchanged, whether or not `finalized` is set. -/
def execNop (s : State) : StepOutcome := unlessHalted s fun s => .next s

/-- INIT (R142): the fresh state; `fault` is not written, and a halted engine discards the command. -/
def execInit (s : State) : StepOutcome := unlessHalted s fun s => .next (fresh s)

end Sys2Proof.Machine
end

