-- ==== Sys2Proof/Machine/Step.lean ====
section
/-! DEFINITION. One step (00_scope.md R6, 42_commands.md R140): the next event of the input is taken and carried out
whole. With no event presented the engine is idle and keeps its state (60_exceptions.md R180). -/

namespace Sys2Proof.Machine

/-- One step. The halt test, the decoding and the `finalized` test come in the order of R140: every command and
`rejectBeat` begin with the halt test (line 1), and decoding has no effect of its own. -/
def step (s : State) : Host.Outcome State Fault Refusal :=
  match takeEvent s with
  | none => .next s
  | some (.reset, t) => .next (hardwareReset t)
  | some (.beat w, t) =>
    match decode w with
    | .illegal => rejectBeat t
    | .command i => exec i t

/-- The state with the beat of an opcode-table word presented first at the command port, before every other event
of the input. The engine has no program memory (10_state.md R32): what it executes next is the next beat the host
presents (assumption 12). A value that does not fit the 10-bit port cannot be presented. -/
def State.withFetchWord (s : State) (nbits w : Nat) : State :=
  match beatOfBits nbits w with
  | none => s
  | some b => { s with input := .beat b :: s.input }

end Sys2Proof.Machine
end

