-- ==== Sys2Proof/Machine/Burst.lean ====
section
/-! DEFINITION. The source-level operation `update(data)` as one operation (42_commands.md R144) and its wire form, one
ABSORB per byte (30_encoding.md R88). The machine's commands are the wire form; R145 relates the two. -/

namespace Sys2Proof.Machine

/-- Phase 1 of R144: completes the pending buffer as far as the data go; answers the read position. -/
def updatePhase1 (data : List Byte) (s : State) : Nat × State :=
  let fill := s.blockFill.toNat
  if fill = 0 then (0, s)
  else
    let k := min (64 - fill) data.length
    let t := { s with blockBuffer := storeRun s.blockBuffer fill (data.take k) }
    if fill + k = 64 then (k, { compressBuffer t with blockFill := 0 })
    else (k, { t with blockFill := BitVec.ofNat 6 (fill + k) })

/-- Phase 2 of R144: whole blocks straight from the data, without the buffer. -/
def updatePhase2 (rest : List Byte) (s : State) : State := { s with state := process s.state rest }

/-- Phase 3 of R144: buffers the remainder, entered only if there is one (90_conflicts.md C2). -/
def updatePhase3 (rest : List Byte) (s : State) : State :=
  if rest = [] then s
  else { s with blockBuffer := storeRun s.blockBuffer 0 rest, blockFill := BitVec.ofNat 6 rest.length }

/-- The three phases of R144, after the length has been counted once. -/
def updateBurst (data : List Byte) (s : State) : State :=
  let s0 := { s with totalLength := s.totalLength + BitVec.ofNat 64 data.length }
  let p := updatePhase1 data s0
  let rest := data.drop p.1
  updatePhase3 (rest.drop (64 * (rest.length / 64))) (updatePhase2 rest p.2)

/-- UPDATE as one operation, with the entry tests of ABSORB (R144). -/
def execUpdate (data : List Byte) (s : State) : StepOutcome :=
  unlessHalted s fun s => unlessFinalized s fun s => .next (updateBurst data s)

/-- The wire form of UPDATE on an engine that accepts data: one ABSORB per byte, in order (30_encoding.md R88). -/
def absorbAll (data : List Byte) (s : State) : State := data.foldl (fun s b => absorbByte b s) s

end Sys2Proof.Machine
end

