-- ==== Sys2Proof/Config.lean ====
section
/-! DEFINITION. What is fixed for the engine and what the spec leaves open. The engine has no optional feature and
no configuration register (00_scope.md R5, decision D14); its sizes stand in the types (`Word`, `Byte`, `Beat`, the
lengths of the vectors). Left: the named premise MAXLEN and the one free value of the model. -/

namespace Sys2Proof

/-- `MAXLEN` (93_implementation_defined.md U3, 70_reset_and_hazards.md R198): from this message length in bytes on,
`total_length * 8` no longer fits the 64-bit length field. A premise of claims, not a limit of the machine. -/
def Config.maxLen : Nat := 2 ^ 61

/-- FREE VALUE (93_implementation_defined.md U1; assumption 3): what the `digest` port shows while
`digest_valid = 0`, "a draw under no law". The argument is the draw's index (`State.digestDraw`). It has no body:
nothing can be proved about its values. -/
opaque Config.digestPort : Nat → BitVec 256

end Sys2Proof
end

