-- ==== Sys2Proof/Machine/Flags.lean ====
section
/-! DEFINITION. Everything the outside world can see: the output ports `status`, `digest_valid`, `digest`
(10_state.md R33 to R35) and `cmd_ready` (30_encoding.md R81), all pure functions of the state, and the phase
(42_commands.md R150). The engine has no condition codes (10_state.md R33). -/

namespace Sys2Proof.Machine

/-- Port `digest_valid`: `finalized = 1` and `fault = 0` (R35). -/
def digestValid (s : State) : Bool := s.finalized && s.fault == 0#2

/-- Port `status` (R33): 7:5 zero, 4 DIGEST_VALID, 3:2 CAUSE, 1 HALTED, 0 FINALIZED. -/
def status (s : State) : BitVec 8 :=
  0#3 ++ BitVec.ofBool (digestValid s) ++ s.fault ++ BitVec.ofBool (halted s) ++ BitVec.ofBool s.finalized

/-- The 256 bits of a hash state, word 0 most significant (R34). -/
def digestOfWords (x : HashWords) : BitVec 256 :=
  x[0] ++ x[1] ++ x[2] ++ x[3] ++ x[4] ++ x[5] ++ x[6] ++ x[7]

/-- `digest_bytes` of R34: 32 bytes, word 0 first, each word big-endian. -/
def digestBytes (x : HashWords) : List Byte := x.toList.flatMap be32Bytes

/-- Port `digest` (R34): the hash state while `digest_valid = 1`, otherwise a free value
(93_implementation_defined.md U1; assumption 3). -/
def digest (s : State) : BitVec 256 :=
  if digestValid s then digestOfWords s.state else Config.digestPort s.digestDraw

/-- Port `cmd_ready` at a step boundary (30_encoding.md R81): 1 after every command, also when halted. -/
def cmdReady (_ : State) : Bool := true

/-- The three phases of 42_commands.md R150. -/
inductive Phase where
  | active
  | done
  | halt
  deriving DecidableEq, Repr

/-- The phase, a function of `(finalized, fault)` (42_commands.md R150). -/
def phase (s : State) : Phase :=
  if halted s then .halt else if s.finalized then .done else .active

end Sys2Proof.Machine
end

