-- ==== Sys2Proof/Safety.lean ====
section
/-! DEFINITION. What claims speak of: the invariant every step keeps, the fresh state, the end of a run, what a
session's state means (10_state.md R31), and the agreements of states that the host cannot tell apart (10_state.md
R36, 42_commands.md R145) or that differ in data only (40_word_functions.md R101). -/

namespace Sys2Proof

/-- Commands alike but for the data byte. -/
def Instr.sameShape : Instr → Instr → Bool
  | .nop, .nop => true
  | .init, .init => true
  | .absorb _, .absorb _ => true
  | .finalize, .finalize => true
  | _, _ => false

end Sys2Proof

namespace Sys2Proof.Machine

/-- The invariant of the machine: the buffer is canonical, `fault` is never 3 (10_state.md R26), a halt by
UseAfterFinalize happens only with `finalized = 1` (10_state.md R33), and `block_fill = total_length mod 64`
(10_state.md R24; 64 divides 2^64, so a wrapped counter keeps it, and FINALIZE writes neither). -/
abbrev State.Inv (s : State) : Prop :=
  s.blockBuffer.wf = true ∧ s.fault ≠ 3#2 ∧ (s.fault = 1#2 → s.finalized = true) ∧
  s.blockFill.toNat = s.totalLength.toNat % 64

/-- The fresh state of 10_state.md R37, as the values it holds (`fault` apart). -/
abbrev State.IsFresh (s : State) : Prop :=
  s.state = tableH ∧ s.totalLength = 0 ∧ s.blockFill = 0 ∧ (∀ a, bufRead s.blockBuffer a = 0#8) ∧ s.finalized = false

/-- The engine accepts data: phase ACTIVE (42_commands.md R150). -/
abbrev State.Active (s : State) : Prop := s.fault = 0#2 ∧ s.finalized = false

/-- The fields outside the spec's tuple, which no command touches: the rest of the input and the digest draw. -/
abbrev State.SameOutside (s t : State) : Prop := t.input = s.input ∧ t.digestDraw = s.digestDraw

/-- The end of a run of 42_commands.md R151: then and only then `digest` is a result. -/
abbrev State.HasResult (s : State) : Prop := s.finalized = true ∧ s.fault = 0#2

/-- Invariants I1 to I5 of 10_state.md R31, for the message `msg` absorbed so far in this session. I1 is the type of
`block_fill`; I5 is stated modulo 2^64, so it also covers a wrapped counter. -/
abbrev State.Tracks (s : State) (msg : List Byte) : Prop :=
  s.Active ∧ s.totalLength = BitVec.ofNat 64 msg.length ∧ s.blockFill.toNat = s.totalLength.toNat % 64 ∧
  liveBytes s = msg.drop (msg.length - s.blockFill.toNat) ∧
  s.state = process tableH (msg.take (msg.length - s.blockFill.toNat))

/-- What the state of an engine that is not halted means: while it accepts data it tracks some message (R31), and
once finalized it holds the hash of some padded message (10_state.md R34, 42_commands.md R149). -/
abbrev State.SessionInv (s : State) : Prop :=
  s.Inv ∧ (s.Active → ∃ msg, s.Tracks msg) ∧ (s.HasResult → ∃ msg, s.state = process tableH (paddedMessage msg))

/-- Equal up to dead bytes of the buffer (42_commands.md R145). -/
abbrev State.AgreeUpToDead (s t : State) : Prop :=
  s.state = t.state ∧ s.totalLength = t.totalLength ∧ s.blockFill = t.blockFill ∧ s.finalized = t.finalized ∧
  s.fault = t.fault ∧ liveBytes s = liveBytes t ∧ s.SameOutside t

/-- Equal up to hidden state (10_state.md R36): dead bytes always, and the whole buffer, `total_length` and
`block_fill` while `finalized = 1`. -/
abbrev State.AgreeUpToHidden (s t : State) : Prop :=
  s.state = t.state ∧ s.finalized = t.finalized ∧ s.fault = t.fault ∧ s.SameOutside t ∧
  (s.finalized = false →
    s.totalLength = t.totalLength ∧ s.blockFill = t.blockFill ∧ liveBytes s = liveBytes t)

/-- Equal in everything that may steer control: no word and no byte of data is among it (40_word_functions.md R101). -/
abbrev State.AgreeOnControl (s t : State) : Prop :=
  s.totalLength = t.totalLength ∧ s.blockFill = t.blockFill ∧ s.finalized = t.finalized ∧ s.fault = t.fault

/-- `k` steps of the machine, stopping where a step stops; the host's `Host.Core.run` on this machine. -/
def runSteps : Nat → State → Host.Outcome State Fault Refusal
  | 0, s => .next s
  | k + 1, s =>
    match step s with
    | .next t => runSteps k t
    | .fault r => .fault r
    | .refused r => .refused r

/-- The beats of a sequence of commands, as events of the input. -/
def beatsOf (cs : List Instr) : List Event := cs.map fun i => Event.beat (encode i)

end Sys2Proof.Machine
end

