-- ==== Sys2Proof/Certificates/Slice0/Obligations.lean ====
section
/-! DEFINITION. The statements for the provers, each from the numbered rules of spec/ that its docstring names. What a
statement says of `input` and `digestDraw` (`SameOutside`, `rest`) is about the model's own two fields (assumptions 2
and 3), and that a step which raises a fault answers a next state is assumption 1: neither is a rule of the spec. -/

open Sys2Proof Sys2Proof.Machine

/-! ### Reset, INIT, NOP -/

/-- 10_state.md R37, 70_reset_and_hazards.md R190: the values after reset, the initial hash words written out
(41_compression.md R120). -/
def Obligations.ResetStateIsFresh : Prop :=
  State.reset.IsFresh ∧ State.reset.fault = 0 ∧
  State.reset.state = #v[0x6A09E667, 0xBB67AE85, 0x3C6EF372, 0xA54FF53A, 0x510E527F, 0x9B05688C, 0x1F83D9AB, 0x5BE0CD19] ∧
  status State.reset = 0x00 ∧ digestValid State.reset = false ∧ phase State.reset = .active

/-- 70_reset_and_hazards.md R190: a reset event, in any phase, makes every field fresh and clears `fault`. That the
event stands in `input` is the model's choice (assumption 2). -/
def Obligations.ResetEventMakesFresh : Prop :=
  ∀ (s : State) (rest : List Event), s.input = .reset :: rest →
    ∃ t, step s = .next t ∧ t.IsFresh ∧ t.fault = 0 ∧ t.input = rest ∧ phase t = .active ∧ status t = 0x00

/-- 70_reset_and_hazards.md R191: a reset and an INIT leave identical states unless the engine is halted, where INIT is
discarded and reset clears the fault. -/
def Obligations.ResetAndInitAgree : Prop :=
  ∀ s : State,
    (s.fault = 0 → exec .init s = .next (hardwareReset s)) ∧
    (s.fault ≠ 0 → exec .init s = .next s ∧ (hardwareReset s).IsFresh ∧ (hardwareReset s).fault = 0)

/-- 42_commands.md R142: INIT leaves the fresh state and does not write `fault`; a halted engine discards it. -/
def Obligations.InitMakesFresh : Prop :=
  ∀ s : State,
    (s.fault = 0 → ∃ t, exec .init s = .next t ∧ t.IsFresh ∧ t.fault = 0 ∧ digestValid t = false ∧ status t = 0x00 ∧
      s.SameOutside t) ∧
    (s.fault ≠ 0 → exec .init s = .next s)

/-- 70_reset_and_hazards.md R201: no state survives from one session to the next; two engines that are not halted are
equal after INIT whatever their sessions were. -/
def Obligations.NothingSurvivesInit : Prop :=
  ∀ s t : State, s.fault = 0 → t.fault = 0 → s.SameOutside t →
    ∃ u, exec .init s = .next u ∧ exec .init t = .next u

/-- 42_commands.md R141: NOP completes in every phase and changes no field; an `op = 00` beat with `imm8 ≠ 0` is no NOP. -/
def Obligations.NopChangesNothing : Prop :=
  (∀ s : State, exec .nop s = .next s) ∧ (∀ w : Beat, Beat.op w = 0 → Beat.imm8 w ≠ 0 → decode w = .illegal)

/-! ### ABSORB -/

/-- 42_commands.md R143 below the 64th byte: the byte is counted and stored at `block_fill`, which moves on by one;
nothing else changes. -/
def Obligations.AbsorbStoresByte : Prop :=
  ∀ (b : Byte) (s : State), s.Active → s.blockBuffer.wf = true → s.blockFill ≠ 63 →
    ∃ t, exec (.absorb b) s = .next t ∧
      t.totalLength.toNat = (s.totalLength.toNat + 1) % 2 ^ 64 ∧
      t.blockFill.toNat = s.blockFill.toNat + 1 ∧
      bufRead t.blockBuffer (fillOffset s) = b ∧
      (∀ a, a ≠ fillOffset s → bufRead t.blockBuffer a = bufRead s.blockBuffer a) ∧
      t.state = s.state ∧ t.Active ∧ s.SameOutside t

/-- 42_commands.md R143 at the 64th byte: the buffer with the new byte at offset 63 is compressed in the same step and
`block_fill` returns to 0; the buffer keeps its 64 bytes. -/
def Obligations.AbsorbFlushesFullBlock : Prop :=
  ∀ (b : Byte) (s : State), s.Active → s.blockBuffer.wf = true → s.blockFill = 63 →
    ∃ t, exec (.absorb b) s = .next t ∧
      t.totalLength.toNat = (s.totalLength.toNat + 1) % 2 ^ 64 ∧
      t.blockFill = 0 ∧
      bufRead t.blockBuffer 63 = b ∧
      (∀ a, a ≠ 63 → bufRead t.blockBuffer a = bufRead s.blockBuffer a) ∧
      t.state = compress s.state (Vector.ofFn fun i : Fin 64 => if i = 63 then b else bufRead s.blockBuffer i) ∧
      t.Active ∧ s.SameOutside t

/-! ### FINALIZE -/

/-- 42_commands.md R146, R147 for `block_fill ≤ 55`: one block of the live bytes, `0x80`, zeros up to offset 55 and the
big-endian bit length at 56..63 is compressed; `block_fill` and `total_length` stay; the digest becomes valid. -/
def Obligations.FinalizeOneBlock : Prop :=
  ∀ s : State, s.Active → s.blockBuffer.wf = true → s.blockFill.toNat ≤ 55 →
    ∃ (t : State) (blk : Block), exec .finalize s = .next t ∧
      (∀ i : Fin 64, blk[i.val] =
        if i.val < s.blockFill.toNat then bufRead s.blockBuffer i
        else if i.val = s.blockFill.toNat then 0x80
        else if i.val < 56 then 0x00
        else (s.totalLength * 8).extractLsb' (8 * (63 - i.val)) 8) ∧
      t.state = compress s.state blk ∧ (∀ i : Fin 64, bufRead t.blockBuffer i = blk[i.val]) ∧
      t.blockFill = s.blockFill ∧ t.totalLength = s.totalLength ∧ t.finalized = true ∧ t.fault = 0 ∧
      status t = 0x11 ∧ digest t = digestOfWords t.state ∧ s.SameOutside t

/-- 42_commands.md R146, R147 for `56 ≤ block_fill`: two blocks, the first with the live bytes, `0x80` and zeros, the
second with 56 zeros and the bit length (90_conflicts.md C1). -/
def Obligations.FinalizeTwoBlocks : Prop :=
  ∀ s : State, s.Active → s.blockBuffer.wf = true → 56 ≤ s.blockFill.toNat →
    ∃ (t : State) (blk1 blk2 : Block), exec .finalize s = .next t ∧
      (∀ i : Fin 64, blk1[i.val] =
        if i.val < s.blockFill.toNat then bufRead s.blockBuffer i
        else if i.val = s.blockFill.toNat then 0x80 else 0x00) ∧
      (∀ i : Fin 64, blk2[i.val] =
        if i.val < 56 then 0x00 else (s.totalLength * 8).extractLsb' (8 * (63 - i.val)) 8) ∧
      t.state = compress (compress s.state blk1) blk2 ∧ (∀ i : Fin 64, bufRead t.blockBuffer i = blk2[i.val]) ∧
      t.blockFill = s.blockFill ∧ t.totalLength = s.totalLength ∧ t.finalized = true ∧ t.fault = 0 ∧
      status t = 0x11 ∧ digest t = digestOfWords t.state ∧ s.SameOutside t

/-- 42_commands.md R147: in both paths the bytes compressed are `0x80 ++ zeros(z) ++ LL` appended to the live bytes, one
block for a fill of at most 55 and two otherwise. -/
def Obligations.FinalizeCompressesPaddedTail : Prop :=
  ∀ s : State, s.Active → s.blockBuffer.wf = true →
    ∃ t, exec .finalize s = .next t ∧
      t.state = process s.state (liveBytes s ++ padding s.blockFill.toNat (lengthField s)) ∧
      (liveBytes s ++ padding s.blockFill.toNat (lengthField s)).length =
        (if s.blockFill.toNat ≤ 55 then 64 else 128)

/-- 42_commands.md R148, 20_memory.md R53: the length field is the byte count times 8, truncated to 64 bits, exact below
2^61 bytes, and stands big-endian at offsets 56..63 of the last block. -/
def Obligations.LengthFieldIsBitLength : Prop :=
  (∀ s : State, (lengthField s).toNat = s.totalLength.toNat * 8 % 2 ^ 64 ∧
    (s.totalLength.toNat < Config.maxLen → (lengthField s).toNat = s.totalLength.toNat * 8)) ∧
  (∀ s : State, s.Active → s.blockBuffer.wf = true →
    ∃ t, exec .finalize s = .next t ∧ memRead t.blockBuffer 56 8 (by omega) = lengthField s ∧
      ∀ k : Fin 8, bufRead t.blockBuffer ⟨56 + k.val, by omega⟩ = (be64Bytes (lengthField s)).getD k.val 0)

/-! ### Faults -/

/-- 60_exceptions.md R171, R173: ABSORB and FINALIZE on a finalized engine latch code 1 and change nothing else; the
digest is no longer valid. NOP and INIT never raise it. That the raised fault is a next state is the model's choice
(assumption 1; R174 speaks of a fault outcome of the step). -/
def Obligations.UseAfterFinalizeRaised : Prop :=
  ∀ (i : Instr) (s : State), s.fault = 0 → s.finalized = true →
    ((i = .finalize ∨ ∃ b, i = .absorb b) →
      ∃ t, exec i s = .next t ∧ t = { s with fault := 1 } ∧ digestValid t = false ∧ status t = 0x07) ∧
    ((i = .nop ∨ i = .init) → ∃ t, exec i s = .next t ∧ t.fault = 0)

/-- 60_exceptions.md R172, R173, R175: a reserved beat latches code 2, whether or not the engine is finalized, and has
no other effect. That the raised fault is a next state, that the beat is taken from `input`, and that the draw may move
on are the model's choices (assumptions 1, 2 and 3). -/
def Obligations.IllegalBeatRaised : Prop :=
  ∀ (s : State) (w : Beat) (rest : List Event), s.fault = 0 → s.input = .beat w :: rest → Beat.reserved w = true →
    ∃ t, step s = .next t ∧ t = { s with fault := 2, input := rest, digestDraw := t.digestDraw } ∧
      digestValid t = false ∧ status t = (if s.finalized then 0x0B else 0x0A)

/-- 60_exceptions.md R174, 42_commands.md R140 line 1: a halted engine discards every beat, legal or not, and every
command; the beat is taken from the input and nothing else changes. That the beat is the head of `input`, and that the
draw may move on, are the model's choices (assumptions 2 and 3). -/
def Obligations.HaltedDiscardsEverything : Prop :=
  (∀ (s : State) (w : Beat) (rest : List Event), s.fault ≠ 0 → s.input = .beat w :: rest →
    ∃ t, step s = .next t ∧ t = { s with input := rest, digestDraw := t.digestDraw }) ∧
  (∀ (i : Instr) (s : State), s.fault ≠ 0 → exec i s = .next s)

/-- 60_exceptions.md R170, R175: from an engine that is not halted, a step latches code 2 exactly on a reserved beat,
code 1 exactly on ABSORB or FINALIZE when finalized, and never code 3. That the raised fault is a next state and the
beat the head of `input` are the model's choices (assumptions 1 and 2). -/
def Obligations.FaultsRaisedExactly : Prop :=
  ∀ s t : State, s.fault = 0 → step s = .next t →
    (t.fault = 2 ↔ ∃ w rest, s.input = .beat w :: rest ∧ Beat.reserved w = true) ∧
    (t.fault = 1 ↔ s.finalized = true ∧ ∃ w rest i, s.input = .beat w :: rest ∧ decode w = .command i ∧
      (i = .finalize ∨ ∃ b, i = .absorb b)) ∧
    t.fault ≠ 3

/-- 10_state.md R26, 60_exceptions.md R174: a latched fault keeps its code through every step but a reset, which clears
it. That the event is the head of `input` is the model's choice (assumption 2). -/
def Obligations.FaultStaysUntilReset : Prop :=
  ∀ s t : State, s.fault ≠ 0 → step s = .next t →
    ((∃ rest, s.input = .reset :: rest) → t.fault = 0) ∧
    ((¬ ∃ rest, s.input = .reset :: rest) → t.fault = s.fault)

/-! ### The step and the phases -/

/-- 42_commands.md R140: when the next event is a beat that decodes to a well-formed command, the step is that command
on the state with the beat taken. How the beat is taken from `input`, with the draw, is the model's choice (assumptions
2 and 3). -/
def Obligations.StepRunsDecodedCommand : Prop :=
  ∀ (s : State) (w : Beat) (rest : List Event) (i : Instr), s.input = .beat w :: rest → decode w = .command i →
    i.wellFormed = true → step s = exec i (consumed rest s)

/-- 42_commands.md R140, 30_encoding.md R83: an opcode-table word presented at the port is what the next step runs. That
the word stands at the head of `input` and that the draw moves on are the model's (assumptions 12 and 3). -/
def Obligations.PresentedTableWordRuns : Prop :=
  ∀ (s : State) (nbits w : Nat) (i : Instr), decodeTableWord nbits w = some i →
    step (s.withFetchWord nbits w) = exec i { s with digestDraw := s.digestDraw + 1 }

/-- 70_reset_and_hazards.md R202: every step and every command completes; 00_scope.md R7: none is refused. That each
completes with a NEXT STATE is the model's choice: R7 has two outcomes, next state and fault, and the model takes a
raised fault as a next state with the code latched and never stops (assumptions 1 and 9); that a step with an empty input
is idle is assumption 2. -/
def Obligations.EveryStepCompletes : Prop :=
  (∀ s : State, ∃ t, step s = .next t) ∧ (∀ (i : Instr) (s : State), ∃ t, exec i s = .next t)

/-- 20_memory.md R51, R62: a step takes exactly the first event of the input and leaves the order of the rest; with
nothing presented the engine is idle and keeps all its state (60_exceptions.md R180). The list is the model's form of
the input stream (assumption 2). -/
def Obligations.StepTakesOneEvent : Prop :=
  ∀ s : State, ∃ t, step s = .next t ∧ t.input = s.input.tail ∧ (s.input = [] → t = s)

/-- 42_commands.md R150: the phases as functions of `(finalized, fault)`, the status of the two that are not halted, and
every cell of the phase table. That the step of a cell which enters HALT, raising a fault, answers a next state is the
model's choice (assumption 1; R174 speaks of a fault outcome of the step), and so is the event at the head of `input`
(assumption 2). -/
def Obligations.PhaseTable : Prop :=
  ∀ s : State,
    (phase s = .active ↔ s.finalized = false ∧ s.fault = 0) ∧ (phase s = .done ↔ s.finalized = true ∧ s.fault = 0) ∧
    (phase s = .halt ↔ s.fault ≠ 0) ∧ (phase s = .active → status s = 0x00) ∧ (phase s = .done → status s = 0x11) ∧
    (∀ rest, s.input = .reset :: rest → ∃ t, step s = .next t ∧ phase t = .active ∧ t.IsFresh) ∧
    (∀ w rest, s.input = .beat w :: rest → ∃ t, step s = .next t ∧
      (phase s = .halt → phase t = .halt ∧ t.fault = s.fault) ∧
      (phase s ≠ .halt → decode w = .illegal → phase t = .halt ∧ t.fault = 2) ∧
      (phase s ≠ .halt → decode w = .command .nop → phase t = phase s) ∧
      (phase s ≠ .halt → decode w = .command .init → phase t = .active ∧ t.IsFresh) ∧
      (∀ b, decode w = .command (.absorb b) →
        (phase s = .active → phase t = .active) ∧ (phase s = .done → phase t = .halt ∧ t.fault = 1)) ∧
      (decode w = .command .finalize →
        (phase s = .active → phase t = .done) ∧ (phase s = .done → phase t = .halt ∧ t.fault = 1)))

/-! ### Invariants -/

/-- The invariant holds right after reset (10_state.md R24, R26, R33, R37). -/
def Obligations.InvHoldsAtReset : Prop := State.reset.Inv

/-- Every step keeps the invariant: canonical buffer (the model's form, assumption 4), `fault` never 3, UseAfterFinalize
only when finalized, `block_fill = total_length mod 64` (10_state.md R24, R26, R33). R24 states the last only before a
wrap and before FINALIZE; that it holds beyond them is DEDUCED (assumption 18). -/
def Obligations.StepKeepsInv : Prop :=
  ∀ s t : State, s.Inv → step s = .next t → t.Inv

/-- The session invariant holds right after reset (10_state.md R31, R37). -/
def Obligations.SessionInvHoldsAtReset : Prop := State.reset.SessionInv

/-- Every step keeps the session invariant: while the engine accepts data it tracks a message, and once finalized its
state is the hash of a padded message (10_state.md R31, 42_commands.md R149). Lengths are taken modulo 2^64, so that it
also holds past a wrap: DEDUCED (assumptions 7 and 18). -/
def Obligations.StepKeepsSessionInv : Prop :=
  ∀ s t : State, s.SessionInv → step s = .next t → t.SessionInv

/-- 10_state.md R31: the invariants I1 to I5 for the message absorbed so far. A fresh engine tracks the empty message,
NOP keeps the message, INIT empties it, ABSORB appends its byte. R31 claims this only before `total_length` wraps; that it
also holds for a message of 2^64 bytes or more, lengths taken modulo 2^64, is DEDUCED (assumptions 7 and 18). -/
def Obligations.CommandsTrackMessage : Prop :=
  (∀ s : State, s.IsFresh → s.fault = 0 → s.Tracks []) ∧
  (∀ (s : State) (msg : List Byte), s.blockBuffer.wf = true → s.Tracks msg →
    (∃ t, exec .nop s = .next t ∧ t.Tracks msg) ∧
    (∃ t, exec .init s = .next t ∧ t.Tracks []) ∧
    (∀ b, ∃ t, exec (.absorb b) s = .next t ∧ t.Tracks (msg ++ [b])))

/-- 42_commands.md R149: INIT, the bytes of a message of fewer than 2^61 bytes and FINALIZE, presented to an engine
that is not halted, leave the hash of the padded message in `state` and on `digest`. That the beats stand in `input` is
the model's choice (assumption 2). -/
def Obligations.SessionHashesMessage : Prop :=
  ∀ (s : State) (msg : List Byte) (rest : List Event), s.fault = 0 → s.blockBuffer.wf = true →
    msg.length < Config.maxLen → s.input = beatsOf (hashCommands msg) ++ rest →
    ∃ t : State, runSteps (msg.length + 2) s = .next t ∧ t.HasResult ∧
      t.state = process tableH (paddedMessage msg) ∧
      digest t = digestOfWords (process tableH (paddedMessage msg)) ∧ t.input = rest

/-- 42_commands.md R149, glossary "Padding": the padded message is the message, `0x80`, zeros and the 64-bit bit length,
in whole blocks, `floor(|M| / 64) + 1` of them when `|M| mod 64 ≤ 55` and one more otherwise. -/
def Obligations.PaddedMessageIsWholeBlocks : Prop :=
  ∀ msg : List Byte, msg.length < Config.maxLen →
    (paddedMessage msg).length =
      64 * (if msg.length % 64 ≤ 55 then msg.length / 64 + 1 else msg.length / 64 + 2) ∧
    (paddedMessage msg).take (msg.length + 1) = msg ++ [0x80] ∧
    (∀ k, msg.length + 1 ≤ k → k + 8 < (paddedMessage msg).length → (paddedMessage msg)[k]? = some 0x00) ∧
    (∀ k : Fin 8, (paddedMessage msg)[(paddedMessage msg).length - 8 + k.val]? =
      some (BitVec.ofNat 8 (8 * msg.length / 256 ^ (7 - k.val))))

/-! ### Frames, work -/

/-- What each command leaves unchanged whenever it answers a next state (42_commands.md R141 to R146, 60_exceptions.md
R173): `fault` apart, which only a raised fault writes. ABSORB stores at `block_fill` only; FINALIZE stores the padding
from `block_fill` on, and in the two-block path the whole second block. -/
def Obligations.CommandFrames : Prop :=
  ∀ s t : State,
    (exec .nop s = .next t → t = s) ∧
    (exec .init s = .next t → t.fault = s.fault ∧ s.SameOutside t) ∧
    (∀ b, exec (.absorb b) s = .next t →
      t.finalized = s.finalized ∧ s.SameOutside t ∧ (s.finalized = false → t.fault = s.fault) ∧
      (s.blockFill ≠ 63 → t.state = s.state) ∧
      (s.finalized = true → t.state = s.state ∧ t.totalLength = s.totalLength ∧ t.blockFill = s.blockFill ∧
        t.blockBuffer = s.blockBuffer) ∧
      (∀ a, a ≠ fillOffset s → bufRead t.blockBuffer a = bufRead s.blockBuffer a)) ∧
    (exec .finalize s = .next t →
      t.totalLength = s.totalLength ∧ t.blockFill = s.blockFill ∧ s.SameOutside t ∧
      (s.finalized = false → t.fault = s.fault) ∧
      (s.finalized = true → t.state = s.state ∧ t.blockBuffer = s.blockBuffer) ∧
      (s.blockFill.toNat ≤ 55 →
        ∀ a : Fin 64, a.val < s.blockFill.toNat → bufRead t.blockBuffer a = bufRead s.blockBuffer a))

/-- 10_state.md R21, 41_compression.md R129: a command changes `state` only by compressing its blocks, or, for INIT, by
loading `H`. -/
def Obligations.StateWrittenOnlyByCompression : Prop :=
  ∀ (i : Instr) (s : State), s.blockBuffer.wf = true →
    ∃ t, exec i s = .next t ∧
      (s.Active → i ≠ .init → t.state = processBlocks s.state (commandBlocks i s)) ∧
      (s.fault = 0 → i = .init → t.state = tableH) ∧
      (¬ s.Active → i ≠ .init → t.state = s.state)

/-- 70_reset_and_hazards.md R203: the compressions each command runs, counted by the blocks that
`StateWrittenOnlyByCompression` says it compresses. -/
def Obligations.WorkPerCommand : Prop :=
  ∀ (s : State) (b : Byte),
    (commandBlocks .nop s).length = 0 ∧ (commandBlocks .init s).length = 0 ∧
    (commandBlocks (.absorb b) s).length = (if s.blockFill.toNat = 63 then 1 else 0) ∧
    (commandBlocks .finalize s).length = (if s.blockFill.toNat ≤ 55 then 1 else 2)

/-! ### What the host cannot see, and what data cannot steer -/

/-- 10_state.md R36: two engines that differ in hidden state only show the same `status` and `digest_valid`, and the same
`digest` while it is valid (93_implementation_defined.md U1), and still differ in hidden state only after every step. -/
def Obligations.HiddenStateUnobservable : Prop :=
  ∀ s t : State, s.blockBuffer.wf = true → t.blockBuffer.wf = true → s.AgreeUpToHidden t →
    status s = status t ∧ digestValid s = digestValid t ∧ (digestValid s = true → digest s = digest t) ∧
    ∃ s' t', step s = .next s' ∧ step t = .next t' ∧ s'.AgreeUpToHidden t'

/-- 40_word_functions.md R101: no word and no byte of data influences control; commands alike but for the data byte, on
states alike in their control fields, leave alike control fields and run equally many compressions. -/
def Obligations.DataNeverSteersControl : Prop :=
  ∀ (s t : State) (i j : Instr), s.AgreeOnControl t → i.sameShape j = true →
    (commandBlocks i s).length = (commandBlocks j t).length ∧
    ∃ s' t', exec i s = .next s' ∧ exec j t = .next t' ∧ s'.AgreeOnControl t'

/-! ### UPDATE: burst form and wire form -/

/-- 42_commands.md R145: the burst form agrees with one ABSORB per byte up to dead bytes, and compresses
`floor((block_fill + n) / 64)` blocks, those of the live bytes followed by the data. Cutting bytes of any
length into their whole blocks is the model's choice (assumption 17). -/
def Obligations.BurstEqualsWireForm : Prop :=
  ∀ (data : List Byte) (s : State), s.Active → s.blockBuffer.wf = true →
    ∃ t, execUpdate data s = .next t ∧ t.AgreeUpToDead (absorbAll data s) ∧
      t.state = processBlocks s.state (blocksOf (liveBytes s ++ data)) ∧
      (blocksOf (liveBytes s ++ data)).length = (s.blockFill.toNat + data.length) / 64

/-- 30_encoding.md R88, 42_commands.md R143: the beats of UPDATE, presented to an engine that accepts data, run as one
ABSORB per byte, in order. That the beats stand in `input` is the model's choice (assumptions 2 and 3). -/
def Obligations.WireFormRuns : Prop :=
  ∀ (data : List Byte) (s : State) (rest : List Event), s.Active → s.input = beatsOf (updateCommands data) ++ rest →
    ∃ t : State, runSteps data.length s = .next t ∧
      t = { absorbAll data s with input := rest, digestDraw := t.digestDraw }

/-- 42_commands.md R145: any partition of a message into updates gives the same state up to dead bytes. -/
def Obligations.PartitionInsensitive : Prop :=
  ∀ (x y : List Byte) (s : State), s.Active → s.blockBuffer.wf = true →
    ∃ t u v, execUpdate x s = .next t ∧ execUpdate y t = .next u ∧ execUpdate (x ++ y) s = .next v ∧
      u.AgreeUpToDead v

/-- 42_commands.md R144: the entry tests of UPDATE are ABSORB's, and an update of no bytes on an engine that accepts data
changes nothing. That the tests are made for no bytes too, so that an empty update of a finalized engine raises the fault,
is the model's choice (assumption 17; on the wire such an update has no beat, 30_encoding.md R88), and so is the raised
fault as a next state (assumption 1). -/
def Obligations.UpdateEntryAndEmpty : Prop :=
  ∀ (data : List Byte) (s : State),
    (s.fault ≠ 0 → execUpdate data s = .next s) ∧
    (s.fault = 0 → s.finalized = true → execUpdate data s = .next { s with fault := 1 }) ∧
    (s.Active → execUpdate [] s = .next s)

/-- 30_encoding.md R88: what UPDATE and HASH expand to, beat by beat; boundaries between successive UPDATEs are not
visible on the wire. -/
def Obligations.PseudoInstructionsExpand : Prop :=
  ∀ x y : List Byte,
    beatsOf (updateCommands x) = x.map (fun b => Event.beat (0b10#2 ++ b)) ∧
    beatsOf (updateCommands []) = [] ∧
    beatsOf (updateCommands (x ++ y)) = beatsOf (updateCommands x) ++ beatsOf (updateCommands y) ∧
    beatsOf (hashCommands x) =
      Event.beat 0x100 :: (x.map (fun b => Event.beat (0b10#2 ++ b)) ++ [Event.beat 0x300])

/-! ### Encoding -/

/-- 30_encoding.md R86: `decode` of `encode` of every well-formed command is that command, and every beat that decodes to
a command is its encoding, so no bit of an encoding is dropped. -/
def Obligations.DecodeEncodeAgree : Prop :=
  (∀ i : Instr, i.wellFormed = true → decode (encode i) = .command i) ∧
  (∀ (w : Beat) (i : Instr), decode w = .command i → encode i = w)

/-- 30_encoding.md R85: the beats that decode to no command are exactly the three reserved ranges, 765 of the 1024. -/
def Obligations.ReservedBeatsAreIllegal : Prop :=
  (∀ w : Beat, decode w = .illegal ↔ Beat.reserved w = true) ∧
  ((List.range 1024).filter fun n => Beat.reserved (BitVec.ofNat 10 n)).length = 765 ∧
  ((List.range 1024).filter fun n => Beat.wellFormed (BitVec.ofNat 10 n)).length = 259

/-- 30_encoding.md R83: a defined beat selects exactly one row of the opcode map, the row of the command it decodes to;
a reserved beat selects none. -/
def Obligations.OpcodeMapSelectsOneRow : Prop :=
  (∀ (w : Beat) (i : Instr), decode w = .command i → (opcodeMap.filter (·.selects w)).map (·.mnemonic) = [i.mnemonic]) ∧
  (∀ w : Beat, decode w = .illegal → opcodeMap.filter (·.selects w) = [])

/-- 30_encoding.md R83, R85: words written out bit by bit from the encodings (a sanity statement). -/
def Obligations.SpecWordsDecode : Prop :=
  decode 0b0000000000 = .command .nop ∧ decode 0b0100000000 = .command .init ∧
  decode 0b1001100001 = .command (.absorb 0x61) ∧ decode 0b1000000000 = .command (.absorb 0x00) ∧
  decode 0b1011111111 = .command (.absorb 0xFF) ∧ decode 0b1100000000 = .command .finalize ∧
  decode 0b0000000001 = .illegal ∧ decode 0b0100000001 = .illegal ∧ decode 0b1100000001 = .illegal ∧
  decode 0b1111111111 = .illegal

/-! ### Outputs -/

/-- 10_state.md R33, R35: the bits of `status`, and `digest_valid`. -/
def Obligations.StatusBits : Prop :=
  ∀ s : State,
    digestValid s = (s.finalized && decide (s.fault = 0)) ∧
    (status s).getLsbD 0 = s.finalized ∧ (status s).getLsbD 1 = decide (s.fault ≠ 0) ∧
    (status s).extractLsb' 2 2 = s.fault ∧ (status s).getLsbD 4 = digestValid s ∧ (status s).extractLsb' 5 3 = 0

/-- 10_state.md R33: under the invariant `status` takes exactly five values, each with its meaning. -/
def Obligations.StatusTakesFiveValues : Prop :=
  ∀ s : State, s.Inv →
    (status s = 0x00 ∧ s.Active) ∨ (status s = 0x11 ∧ s.HasResult) ∨
    (status s = 0x07 ∧ s.fault = 1 ∧ s.finalized = true) ∨
    (status s = 0x0A ∧ s.fault = 2 ∧ s.finalized = false) ∨ (status s = 0x0B ∧ s.fault = 2 ∧ s.finalized = true)

/-- 10_state.md R34, 20_memory.md R54: the digest is big-endian per word, word 0 first: digest byte `4j + k` is bits
`[31-8k : 24-8k]` of `state[j]` and bits `[255-8n : 248-8n]` of the port. -/
def Obligations.DigestIsBigEndian : Prop :=
  (∀ x : HashWords, (digestBytes x).length = 32 ∧
    ∀ j : Fin 8, ∀ k : Fin 4,
      (digestBytes x).getD (4 * j.val + k.val) 0 = x[j.val].extractLsb' (24 - 8 * k.val) 8 ∧
      (digestOfWords x).extractLsb' (248 - 8 * (4 * j.val + k.val)) 8 = x[j.val].extractLsb' (24 - 8 * k.val) 8) ∧
  (∀ s : State, digestValid s = true → digest s = digestOfWords s.state)

/-! ### The block buffer -/

/-- 00_scope.md R11: MemWrite then MemRead of the same range gives the value written, every other offset reads as
before, and the buffer stays canonical. -/
def Obligations.MemReadAfterMemWrite : Prop :=
  ∀ (m : Memory) (addr n : Nat) (v : BitVec (8 * n)) (h : addr + n ≤ 64), m.wf = true →
    memRead (memWrite m addr n v h) addr n h = v ∧ (memWrite m addr n v h).wf = true ∧
    ∀ a : Fin 64, (a.val < addr ∨ addr + n ≤ a.val) → bufRead (memWrite m addr n v h) a = bufRead m a

/-! ### The datapath -/

/-- 40_word_functions.md R100: addition modulo 2^32, associative and commutative. -/
def Obligations.Add32Wraps : Prop :=
  ∀ x y z : Word, (add32 x y).toNat = (x.toNat + y.toNat) % 2 ^ 32 ∧ add32 x y = add32 y x ∧
    add32 (add32 x y) z = add32 x (add32 y z)

/-- 40_word_functions.md R102: bit `j` of `rotr(x, n)` is bit `(j + n) mod 32` of `x`. -/
def Obligations.RotateRightBits : Prop :=
  ∀ (x : Word) (n j : Nat), 1 ≤ n → n ≤ 31 → j < 32 → (rotr x n).getLsbD j = x.getLsbD ((j + n) % 32)

/-- 40_word_functions.md R103, R104: the logical shift, and `xor`, `and`, `not` bit by bit within 32 bits. -/
def Obligations.ShiftAndBitwise : Prop :=
  ∀ x y : Word,
    (∀ n, (shr x n).toNat = x.toNat / 2 ^ n) ∧ (not32 x).toNat = 0xFFFFFFFF - x.toNat ∧
    ∀ j, j < 32 → (xor32 x y).getLsbD j = (x.getLsbD j != y.getLsbD j) ∧
      (and32 x y).getLsbD j = (x.getLsbD j && y.getLsbD j) ∧ (not32 x).getLsbD j = !x.getLsbD j

/-- 40_word_functions.md R105, R106: `Ch` takes `f` where `e` is 1 and `g` where it is 0; `Maj` is the value held by at
least two operands. -/
def Obligations.ChooseAndMajority : Prop :=
  ∀ (a b c : Word) (j : Nat), j < 32 →
    (ch a b c).getLsbD j = (if a.getLsbD j then b.getLsbD j else c.getLsbD j) ∧
    (maj a b c).getLsbD j =
      decide (2 ≤ (a.getLsbD j).toNat + (b.getLsbD j).toNat + (c.getLsbD j).toNat)

/-- 40_word_functions.md R107 to R111: the four sigma functions, bit by bit, with the twelve amounts. -/
def Obligations.SigmaBits : Prop :=
  ∀ (x : Word) (j : Nat), j < 32 →
    (bigS0 x).getLsbD j = ((x.getLsbD ((j + 2) % 32) ^^ x.getLsbD ((j + 13) % 32)) ^^ x.getLsbD ((j + 22) % 32)) ∧
    (bigS1 x).getLsbD j = ((x.getLsbD ((j + 6) % 32) ^^ x.getLsbD ((j + 11) % 32)) ^^ x.getLsbD ((j + 25) % 32)) ∧
    (smallS0 x).getLsbD j =
      ((x.getLsbD ((j + 7) % 32) ^^ x.getLsbD ((j + 18) % 32)) ^^ (decide (j + 3 < 32) && x.getLsbD (j + 3))) ∧
    (smallS1 x).getLsbD j =
      ((x.getLsbD ((j + 17) % 32) ^^ x.getLsbD ((j + 19) % 32)) ^^ (decide (j + 10 < 32) && x.getLsbD (j + 10)))

/-- 41_compression.md R122, 20_memory.md R52: the first sixteen schedule words are the block's bytes as big-endian
words, which for the buffer is `MemRead(4i, 4)`. -/
def Obligations.ScheduleLoadsBigEndian : Prop :=
  ∀ (i : Nat) (h : i < 16),
    (∀ B : Block, ((schedule B)[i]).toNat =
      B[4 * i].toNat * 2 ^ 24 + B[4 * i + 1].toNat * 2 ^ 16 + B[4 * i + 2].toNat * 2 ^ 8 + B[4 * i + 3].toNat) ∧
    (∀ m : Memory, (schedule (bufBlock m))[i] = memRead m (4 * i) 4 (by omega))

/-- 41_compression.md R123: the recurrence of the other 48, in the finished schedule. -/
def Obligations.ScheduleRecurrence : Prop :=
  ∀ (B : Block) (i : Nat) (_ : 16 ≤ i) (_ : i < 64),
    (schedule B)[i] =
      add32 (add32 (add32 (schedule B)[i - 16] (smallS0 (schedule B)[i - 15])) (schedule B)[i - 7])
        (smallS1 (schedule B)[i - 2])

/-- 41_compression.md R125: the round, each sum taken exactly and reduced once. -/
def Obligations.RoundLaw : Prop :=
  ∀ (W : Schedule) (i : Fin 64) (v : Work),
    (roundAt W i v).a.toNat =
      (v.h.toNat + (bigS1 v.e).toNat + (ch v.e v.f v.g).toNat + tableK[i.val].toNat + W[i.val].toNat
        + (bigS0 v.a).toNat + (maj v.a v.b v.c).toNat) % 2 ^ 32 ∧
    (roundAt W i v).e.toNat =
      (v.d.toNat + v.h.toNat + (bigS1 v.e).toNat + (ch v.e v.f v.g).toNat + tableK[i.val].toNat + W[i.val].toNat)
        % 2 ^ 32 ∧
    (roundAt W i v).b = v.a ∧ (roundAt W i v).c = v.b ∧ (roundAt W i v).d = v.c ∧
    (roundAt W i v).f = v.e ∧ (roundAt W i v).g = v.f ∧ (roundAt W i v).h = v.g

/-- 41_compression.md R124, R126, R127: the compression is 64 rounds in ascending order from the state's words, added
back element-wise modulo 2^32. -/
def Obligations.CompressIsSixtyFourRounds : Prop :=
  ∀ (x : HashWords) (B : Block) (v : Nat → Work),
    v 0 = ⟨x[0], x[1], x[2], x[3], x[4], x[5], x[6], x[7]⟩ →
    (∀ (i : Nat) (h : i < 64), v (i + 1) = roundAt (schedule B) ⟨i, h⟩ (v i)) →
    compress x B = #v[add32 x[0] (v 64).a, add32 x[1] (v 64).b, add32 x[2] (v 64).c, add32 x[3] (v 64).d,
      add32 x[4] (v 64).e, add32 x[5] (v 64).f, add32 x[6] (v 64).g, add32 x[7] (v 64).h]

/-- 41_compression.md R130: an implementation that keeps only sixteen schedule words computes the same compression. -/
def Obligations.WindowedScheduleAgrees : Prop :=
  ∀ (x : HashWords) (B : Block), compressWindowed x B = compress x B

/-- 41_compression.md R128: PROCESS takes its blocks left to right with the state carried forward; the last clause is
marked derived there. R128 defines PROCESS on whole blocks only; for a `more` of another length the clauses rest on the
model's choice to ignore the bytes after the last whole block (assumption 17). -/
def Obligations.ProcessCarriesState : Prop :=
  ∀ (x : HashWords) (bytes more : List Byte),
    process x [] = x ∧
    (bytes.length = 64 → process x (bytes ++ more) = process (compress x (blockOfBytes bytes)) more) ∧
    (bytes.length % 64 = 0 → process x (bytes ++ more) = process (process x bytes) more)
end

