-- ==== Sys2Proof/Laws/Memory.lean ====
section
/-! SUPPORT. The laws of the block buffer: reading after writing, that every operation keeps the canonical form, and
that two canonical buffers that read alike are equal. -/

namespace Sys2Proof.Machine

/-! ### Cells -/

@[simp] theorem cellRead_nil (a : Nat) : cellRead [] a = 0#8 := rfl

theorem wfFrom_cons {lo k : Nat} {v : Byte} {m : Memory} :
    Memory.wfFrom lo ((k, v) :: m) = true ↔ lo ≤ k ∧ k < 64 ∧ v ≠ 0#8 ∧ Memory.wfFrom (k + 1) m = true := by
  simp [Memory.wfFrom, and_assoc]

theorem wfFrom_mono {lo hi : Nat} (h : lo ≤ hi) {m : Memory} (hm : Memory.wfFrom hi m = true) :
    Memory.wfFrom lo m = true := by
  cases m with
  | nil => rfl
  | cons c m =>
    obtain ⟨h1, h2⟩ := wfFrom_cons.mp hm
    exact wfFrom_cons.mpr ⟨by omega, h2⟩

/-- A canonical list holds no key below its bound. -/
theorem cellRead_below {lo : Nat} {m : Memory} (hm : Memory.wfFrom lo m = true) {a : Nat} (h : a < lo) :
    cellRead m a = 0#8 := by
  induction m generalizing lo with
  | nil => rfl
  | cons c m ih =>
    obtain ⟨k, v⟩ := c
    obtain ⟨h1, -, -, h4⟩ := wfFrom_cons.mp hm
    have hne : k ≠ a := by omega
    simpa [cellRead, hne] using ih h4 (by omega)

theorem cellRead_cellWrite_ne (m : Memory) {a c : Nat} (b : Byte) (h : c ≠ a) :
    cellRead (cellWrite m a b) c = cellRead m c := by
  induction m with
  | nil =>
    by_cases hb : b = 0#8 <;> simp [cellWrite, cellRead, hb, Ne.symm h]
  | cons x m ih =>
    obtain ⟨k, v⟩ := x
    simp only [cellWrite]
    split
    · split <;> simp [cellRead, Ne.symm h]
    · split
      · subst_vars
        split <;> simp [cellRead, Ne.symm h]
      · simp [cellRead, ih]

theorem cellRead_cellWrite_self {lo : Nat} {m : Memory} (hm : Memory.wfFrom lo m = true) (a : Nat) (b : Byte) :
    cellRead (cellWrite m a b) a = b := by
  induction m generalizing lo with
  | nil => by_cases hb : b = 0#8 <;> simp [cellWrite, cellRead, hb]
  | cons x m ih =>
    obtain ⟨k, v⟩ := x
    obtain ⟨h1, -, -, h4⟩ := wfFrom_cons.mp hm
    simp only [cellWrite]
    split
    · rename_i hak
      split
      · rename_i hb
        have hne : k ≠ a := by omega
        simp [cellRead, hne, cellRead_below h4 (a := a) (by omega), hb]
      · simp [cellRead]
    · split
      · rename_i hak
        split
        · rename_i hb
          rw [cellRead_below h4 (a := a) (by omega), hb]
        · simp [cellRead]
      · rename_i hak
        have hne : k ≠ a := fun h => hak h.symm
        simpa [cellRead, hne] using ih h4

theorem wfFrom_cellWrite {lo : Nat} {m : Memory} (hm : Memory.wfFrom lo m = true) {a : Nat} (b : Byte)
    (hlo : lo ≤ a) (ha : a < 64) : Memory.wfFrom lo (cellWrite m a b) = true := by
  induction m generalizing lo with
  | nil =>
    by_cases hb : b = 0#8
    · simp [cellWrite, hb, Memory.wfFrom]
    · simp [cellWrite, hb, Memory.wfFrom, hlo, ha]
  | cons x m ih =>
    obtain ⟨k, v⟩ := x
    obtain ⟨h1, h2, h3, h4⟩ := wfFrom_cons.mp hm
    simp only [cellWrite]
    split
    · split
      · exact hm
      · rename_i hak hb
        exact wfFrom_cons.mpr ⟨hlo, ha, hb, wfFrom_cons.mpr ⟨by omega, h2, h3, h4⟩⟩
    · split
      · subst_vars
        split
        · exact wfFrom_mono (by omega) h4
        · rename_i hb
          exact wfFrom_cons.mpr ⟨hlo, ha, hb, h4⟩
      · exact wfFrom_cons.mpr ⟨h1, h2, h3, ih h4 (by omega)⟩

/-- Two canonical lists that read alike below 64 are the same list. -/
theorem wfFrom_ext {lo : Nat} {m m' : Memory} (hm : Memory.wfFrom lo m = true) (hm' : Memory.wfFrom lo m' = true)
    (h : ∀ a, a < 64 → cellRead m a = cellRead m' a) : m = m' := by
  induction m generalizing lo m' with
  | nil =>
    cases m' with
    | nil => rfl
    | cons x m' =>
      obtain ⟨k, v⟩ := x
      obtain ⟨-, h2, h3, -⟩ := wfFrom_cons.mp hm'
      exact absurd (by simpa [cellRead] using (h k h2).symm) h3
  | cons x m ih =>
    obtain ⟨k, v⟩ := x
    obtain ⟨h1, h2, h3, h4⟩ := wfFrom_cons.mp hm
    cases m' with
    | nil => exact absurd (by simpa [cellRead] using h k h2) h3
    | cons y m' =>
      obtain ⟨k', v'⟩ := y
      obtain ⟨h1', h2', h3', h4'⟩ := wfFrom_cons.mp hm'
      have hk : k = k' := by
        rcases lt_trichotomy k k' with hlt | heq | hgt
        · have := h k h2
          rw [cellRead_below (wfFrom_cons.mpr ⟨le_refl k', h2', h3', h4'⟩) hlt] at this
          exact absurd (by simpa [cellRead] using this) h3
        · exact heq
        · have := (h k' h2').symm
          rw [cellRead_below (wfFrom_cons.mpr ⟨le_refl k, h2, h3, h4⟩) hgt] at this
          exact absurd (by simpa [cellRead] using this) h3'
      subst hk
      have hv : v = v' := by simpa [cellRead] using h k h2
      subst hv
      congr 1
      refine ih h4 h4' fun a ha => ?_
      by_cases hka : k = a
      · subst hka
        rw [cellRead_below h4 (Nat.lt_succ_self k), cellRead_below h4' (Nat.lt_succ_self k)]
      · simpa [cellRead, hka] using h a ha

/-! ### The buffer -/

@[simp] theorem bufRead_nil (a : Fin 64) : bufRead [] a = 0#8 := rfl

@[simp] theorem wf_nil : Memory.wf [] = true := rfl

theorem bufRead_bufWrite_self {m : Memory} (hm : m.wf = true) (a : Fin 64) (b : Byte) :
    bufRead (bufWrite m a b) a = b := cellRead_cellWrite_self hm a.val b

theorem bufRead_bufWrite_ne (m : Memory) {a c : Fin 64} (b : Byte) (h : c ≠ a) :
    bufRead (bufWrite m a b) c = bufRead m c :=
  cellRead_cellWrite_ne m b fun hv => h (Fin.ext hv)

theorem bufRead_bufWrite {m : Memory} (hm : m.wf = true) (a c : Fin 64) (b : Byte) :
    bufRead (bufWrite m a b) c = if c = a then b else bufRead m c := by
  split
  · subst_vars; exact bufRead_bufWrite_self hm _ b
  · exact bufRead_bufWrite_ne m b ‹_›

theorem wf_bufWrite {m : Memory} (hm : m.wf = true) (a : Fin 64) (b : Byte) : (bufWrite m a b).wf = true :=
  wfFrom_cellWrite hm b (Nat.zero_le _) a.isLt

/-- Equal buffers are equal data. -/
theorem buf_ext {m m' : Memory} (hm : m.wf = true) (hm' : m'.wf = true) (h : ∀ a, bufRead m a = bufRead m' a) :
    m = m' :=
  wfFrom_ext hm hm' fun a ha => h ⟨a, ha⟩

/-! ### Runs of writes -/

/-- Writes at the offsets of a list, one after another, each with the byte `f` gives it, keep the canonical form:
zero fill, MemWrite and storeRun are such runs. -/
theorem wf_foldl_bufWrite {α : Type} (f : α → Byte) (g : α → Fin 64) (l : List α) {m : Memory} (hm : m.wf = true) :
    (l.foldl (fun m x => bufWrite m (g x) (f x)) m).wf = true := by
  induction l generalizing m with
  | nil => exact hm
  | cons x l ih => exact ih (wf_bufWrite hm (g x) (f x))

/-- An offset no write of the run goes to reads as before. -/
theorem foldl_bufWrite_miss {α : Type} (f : α → Byte) (g : α → Fin 64) (l : List α) (m : Memory) (c : Fin 64)
    (hc : ∀ x ∈ l, g x ≠ c) : bufRead (l.foldl (fun m x => bufWrite m (g x) (f x)) m) c = bufRead m c := by
  induction l generalizing m with
  | nil => rfl
  | cons x l ih =>
    simp only [List.foldl_cons]
    rw [ih _ fun y hy => hc y (List.mem_cons_of_mem _ hy)]
    exact bufRead_bufWrite_ne m _ fun h => hc x List.mem_cons_self h.symm

/-- A byte written by such a run, when every write to its offset writes the same byte. -/
theorem foldl_bufWrite_hit {α : Type} (f : α → Byte) (g : α → Fin 64) (l : List α) {m : Memory} (hm : m.wf = true)
    {x : α} (hx : x ∈ l) (huniq : ∀ y ∈ l, g y = g x → f y = f x) :
    bufRead (l.foldl (fun m x => bufWrite m (g x) (f x)) m) (g x) = f x := by
  induction l using List.reverseRecOn with
  | nil => cases hx
  | append_singleton l y ih =>
    simp only [List.foldl_append, List.foldl_cons, List.foldl_nil]
    rw [bufRead_bufWrite (wf_foldl_bufWrite f g l hm)]
    split
    · rename_i h
      exact huniq y (by simp) h.symm
    · rename_i h
      rcases List.mem_append.mp hx with hx | hx
      · exact ih hx fun y hy => huniq y (List.mem_append_left _ hy)
      · simp at hx; subst hx; exact absurd rfl h

theorem mem_offsets {lo hi : Nat} {a : Fin 64} : a ∈ offsets lo hi ↔ lo ≤ a.val ∧ a.val ≤ hi := by
  simp [offsets]

theorem wf_zeroFill {m : Memory} (hm : m.wf = true) (lo hi : Nat) : (zeroFill m lo hi).wf = true :=
  wf_foldl_bufWrite (fun _ => 0#8) (fun a => a) (offsets lo hi) hm

theorem bufRead_zeroFill_outside (m : Memory) (lo hi : Nat) (a : Fin 64) (h : ¬ (lo ≤ a.val ∧ a.val ≤ hi)) :
    bufRead (zeroFill m lo hi) a = bufRead m a :=
  foldl_bufWrite_miss (fun _ => 0#8) (fun a => a) (offsets lo hi) m a fun _ hx hxa => h (hxa ▸ mem_offsets.mp hx)

theorem bufRead_zeroFill {m : Memory} (hm : m.wf = true) (lo hi : Nat) (a : Fin 64) :
    bufRead (zeroFill m lo hi) a = if lo ≤ a.val ∧ a.val ≤ hi then 0#8 else bufRead m a := by
  split
  · rename_i h
    exact foldl_bufWrite_hit (fun _ => 0#8) (fun a => a) (offsets lo hi) hm (mem_offsets.mpr h) fun _ _ _ => rfl
  · rename_i h
    exact bufRead_zeroFill_outside m lo hi a h

theorem wf_memWrite {m : Memory} (hm : m.wf = true) (addr n : Nat) (v : BitVec (8 * n)) (h : addr + n ≤ 64) :
    (memWrite m addr n v h).wf = true :=
  wf_foldl_bufWrite (fun k : Fin n => v.extractLsb' (8 * (n - 1 - k.val)) 8)
    (fun k : Fin n => ⟨addr + k.val, by omega⟩) (List.finRange n) hm

theorem bufRead_memWrite_outside (m : Memory) (addr n : Nat) (v : BitVec (8 * n)) (h : addr + n ≤ 64) (a : Fin 64)
    (ha : ¬ (addr ≤ a.val ∧ a.val < addr + n)) : bufRead (memWrite m addr n v h) a = bufRead m a :=
  foldl_bufWrite_miss (fun k : Fin n => v.extractLsb' (8 * (n - 1 - k.val)) 8)
    (fun k : Fin n => (⟨addr + k.val, by omega⟩ : Fin 64)) (List.finRange n) m a fun k _ hk => by
      have := congrArg Fin.val hk
      simp at this
      have := k.isLt
      omega

/-- MemWrite, byte by byte: big-endian inside its range, nothing outside (00_scope.md R11). -/
theorem bufRead_memWrite {m : Memory} (hm : m.wf = true) (addr n : Nat) (v : BitVec (8 * n)) (h : addr + n ≤ 64)
    (a : Fin 64) :
    bufRead (memWrite m addr n v h) a =
      if addr ≤ a.val ∧ a.val < addr + n then v.extractLsb' (8 * (n - 1 - (a.val - addr))) 8 else bufRead m a := by
  split
  · rename_i ha
    have hk : a.val - addr < n := by omega
    have := foldl_bufWrite_hit (fun k : Fin n => v.extractLsb' (8 * (n - 1 - k.val)) 8)
      (fun k : Fin n => (⟨addr + k.val, by omega⟩ : Fin 64)) (List.finRange n) hm
      (x := ⟨a.val - addr, hk⟩) (List.mem_finRange _)
      (fun y _ hy => by
        have : y.val = a.val - addr := by
          have := congrArg Fin.val hy
          simp at this
          omega
        rw [this])
    have hidx : (⟨addr + (a.val - addr), by omega⟩ : Fin 64) = a := Fin.ext (by simp; omega)
    simpa [memWrite, hidx] using this
  · rename_i ha
    exact bufRead_memWrite_outside m addr n v h a ha

theorem wf_storeRun {m : Memory} (hm : m.wf = true) (off : Nat) (bs : List Byte) : (storeRun m off bs).wf = true := by
  induction bs generalizing m off with
  | nil => exact hm
  | cons b bs ih =>
    simp only [storeRun]
    split
    · exact ih (wf_bufWrite hm _ b) _
    · exact hm

/-- A run of byte writes that fits the buffer, byte by byte. -/
theorem bufRead_storeRun {m : Memory} (hm : m.wf = true) (off : Nat) (bs : List Byte) (hfit : off + bs.length ≤ 64)
    (a : Fin 64) :
    bufRead (storeRun m off bs) a =
      if off ≤ a.val ∧ a.val < off + bs.length then bs.getD (a.val - off) 0 else bufRead m a := by
  induction bs generalizing m off with
  | nil => simp [storeRun]
  | cons b bs ih =>
    simp only [List.length_cons] at hfit ⊢
    have hoff : off < 64 := by omega
    rw [storeRun, dif_pos hoff, ih (wf_bufWrite hm _ b) (off + 1) (by omega), bufRead_bufWrite hm]
    by_cases h1 : a.val = off
    · have : a = ⟨off, hoff⟩ := Fin.ext h1
      subst this
      simp
    · have hne : a ≠ ⟨off, hoff⟩ := fun h => h1 (congrArg Fin.val h)
      rw [if_neg hne]
      by_cases h2 : off + 1 ≤ a.val ∧ a.val < off + 1 + bs.length
      · rw [if_pos h2, if_pos (by omega)]
        have : a.val - off = (a.val - (off + 1)) + 1 := by omega
        rw [this, List.getD_cons_succ]
      · rw [if_neg h2, if_neg (by omega)]

/-! ### The buffer as a block -/

@[simp] theorem getElem_bufBlock (m : Memory) (i : Nat) (h : i < 64) : (bufBlock m)[i] = bufRead m ⟨i, h⟩ := by
  simp [bufBlock]

@[simp] theorem getElem_blockOfBytes (l : List Byte) (i : Nat) (h : i < 64) : (blockOfBytes l)[i] = l.getD i 0 := by
  simp [blockOfBytes]

end Sys2Proof.Machine
end

