-- ==== Sys2Proof/Laws/Compression.lean ====
section
/-! SUPPORT. The message schedule as it grows, and `blocksOf` on concatenations. -/

namespace Sys2Proof.Machine

theorem getElem_schedExpandSteps_succ (W : Schedule) (n : Nat) (hn : n + 1 ≤ 48) (i : Nat) (hi : i < 64) :
    (schedExpandSteps (n + 1) hn W)[i] =
      if 16 + n = i then schedEntry (schedExpandSteps n (by omega) W) (16 + n) (by omega) (by omega)
      else (schedExpandSteps n (by omega) W)[i] := by
  simp [schedExpandSteps, Vector.getElem_set]

/-- An entry written (or loaded) keeps its value while later ones are written. -/
theorem schedExpandSteps_stable (W : Schedule) (n : Nat) (hn : n ≤ 48) (i : Nat) (hi : i < 16 + n) :
    (schedExpand W)[i] = (schedExpandSteps n hn W)[i] := by
  have key : ∀ m (hm : m ≤ 48), n ≤ m → (schedExpandSteps m hm W)[i] = (schedExpandSteps n hn W)[i] := by
    intro m hm hnm
    induction m with
    | zero => obtain rfl : n = 0 := by omega
              rfl
    | succ m ih =>
      by_cases h : n = m + 1
      · subst h; rfl
      · rw [getElem_schedExpandSteps_succ W m hm i (by omega), if_neg (by omega), ih (by omega) (by omega)]
  exact key 48 (by omega) hn

/-- An entry depends on the sixteen before it only. -/
theorem schedEntry_congr {V W : Schedule} {i : Nat} (lo : 16 ≤ i) (hi : i < 64)
    (h : ∀ j (hj : j < i), V[j] = W[j]) : schedEntry V i lo hi = schedEntry W i lo hi := by
  simp only [schedEntry]
  rw [h (i - 16) (by omega), h (i - 15) (by omega), h (i - 7) (by omega), h (i - 2) (by omega)]

theorem schedule_low (B : Block) (i : Nat) (hi : i < 16) : (schedule B)[i] = blockWord B ⟨i, hi⟩ := by
  rw [schedule, schedExpandSteps_stable _ 0 (by omega) i (by omega)]
  simp [schedExpandSteps, schedLoad, hi]

theorem schedule_high (B : Block) (i : Nat) (lo : 16 ≤ i) (hi : i < 64) :
    (schedule B)[i] = schedEntry (schedule B) i lo hi := by
  rw [schedule, schedExpandSteps_stable _ (i - 16 + 1) (by omega) i (by omega),
    getElem_schedExpandSteps_succ _ _ _ i hi, if_pos (by omega)]
  have hcongr : ∀ (V : Schedule) (k : Nat) (h1 : 16 ≤ k) (h2 : k < 64), k = i →
      schedEntry V k h1 h2 = schedEntry V i lo hi := by
    rintro V k _ _ rfl; rfl
  rw [hcongr _ _ _ _ (show 16 + (i - 16) = i by omega)]
  exact schedEntry_congr lo hi fun j hj => (schedExpandSteps_stable _ (i - 16) (by omega) j (by omega)).symm

/-! ### Sequences of blocks -/

theorem blockOfBytes_append_left (x y : List Byte) (h : 64 ≤ x.length) :
    blockOfBytes (x ++ y) = blockOfBytes x := by
  ext i hi
  simp [List.getElem?_append_left (show i < x.length by omega)]

theorem blocksOf_nil : blocksOf [] = [] := rfl

theorem blocksOf_short {x : List Byte} (h : x.length < 64) : blocksOf x = [] := by
  simp [blocksOf, Nat.div_eq_of_lt h]

@[simp] theorem length_blocksOf (x : List Byte) : (blocksOf x).length = x.length / 64 := by simp [blocksOf]

/-- Whole blocks split off the front. -/
theorem blocksOf_append {x : List Byte} (y : List Byte) (h : x.length % 64 = 0) :
    blocksOf (x ++ y) = blocksOf x ++ blocksOf y := by
  have hlen : (x ++ y).length / 64 = x.length / 64 + y.length / 64 := by
    rw [List.length_append]; omega
  rw [blocksOf, blocksOf, blocksOf, hlen, List.range_add, List.map_append, List.map_map]
  refine congrArg₂ (· ++ ·) ?_ ?_
  · refine List.map_congr_left fun k hk => ?_
    have hk := List.mem_range.mp hk
    rw [List.drop_append_of_le_length (by omega), blockOfBytes_append_left _ _ (by rw [List.length_drop]; omega)]
  · refine List.map_congr_left fun k _ => ?_
    have : 64 * (x.length / 64 + k) = x.length + 64 * k := by omega
    simp [this, List.drop_append, List.drop_eq_nil_of_le]

theorem blocksOf_singleton {x : List Byte} (h : x.length = 64) : blocksOf x = [blockOfBytes x] := by
  simp [blocksOf, h]

/-- The bytes after the last whole block do not matter. -/
theorem blocksOf_take (x : List Byte) : blocksOf (x.take (64 * (x.length / 64))) = blocksOf x := by
  have := blocksOf_append (x := x.take (64 * (x.length / 64))) (x.drop (64 * (x.length / 64)))
    (by rw [List.length_take]; omega)
  rw [List.take_append_drop, blocksOf_short (x := x.drop _) (by rw [List.length_drop]; omega), List.append_nil] at this
  exact this.symm

theorem processBlocks_append (x : HashWords) (bs cs : List Block) :
    processBlocks x (bs ++ cs) = processBlocks (processBlocks x bs) cs := List.foldl_append

@[simp] theorem processBlocks_nil (x : HashWords) : processBlocks x [] = x := rfl

end Sys2Proof.Machine
end

