-- ==== Sys2Proof/Laws/State.lean ====
section
/-! SUPPORT. One lemma per field per update: what each named state operation writes and what it leaves. -/

namespace Sys2Proof.Machine

section Raise
variable (f : FaultCause) (s : State)
@[simp] theorem raise_state : (raise f s).state = s.state := rfl
@[simp] theorem raise_totalLength : (raise f s).totalLength = s.totalLength := rfl
@[simp] theorem raise_blockBuffer : (raise f s).blockBuffer = s.blockBuffer := rfl
@[simp] theorem raise_blockFill : (raise f s).blockFill = s.blockFill := rfl
@[simp] theorem raise_finalized : (raise f s).finalized = s.finalized := rfl
@[simp] theorem raise_fault : (raise f s).fault = f.code := rfl
@[simp] theorem raise_input : (raise f s).input = s.input := rfl
@[simp] theorem raise_digestDraw : (raise f s).digestDraw = s.digestDraw := rfl
end Raise

section Fresh
variable (s : State)
@[simp] theorem fresh_state : (fresh s).state = tableH := rfl
@[simp] theorem fresh_totalLength : (fresh s).totalLength = 0 := rfl
@[simp] theorem fresh_blockBuffer : (fresh s).blockBuffer = [] := rfl
@[simp] theorem fresh_blockFill : (fresh s).blockFill = 0 := rfl
@[simp] theorem fresh_finalized : (fresh s).finalized = false := rfl
@[simp] theorem fresh_fault : (fresh s).fault = s.fault := rfl
@[simp] theorem fresh_input : (fresh s).input = s.input := rfl
@[simp] theorem fresh_digestDraw : (fresh s).digestDraw = s.digestDraw := rfl
@[simp] theorem hardwareReset_state : (hardwareReset s).state = tableH := rfl
@[simp] theorem hardwareReset_totalLength : (hardwareReset s).totalLength = 0 := rfl
@[simp] theorem hardwareReset_blockBuffer : (hardwareReset s).blockBuffer = [] := rfl
@[simp] theorem hardwareReset_blockFill : (hardwareReset s).blockFill = 0 := rfl
@[simp] theorem hardwareReset_finalized : (hardwareReset s).finalized = false := rfl
@[simp] theorem hardwareReset_fault : (hardwareReset s).fault = 0 := rfl
@[simp] theorem hardwareReset_input : (hardwareReset s).input = s.input := rfl
@[simp] theorem hardwareReset_digestDraw : (hardwareReset s).digestDraw = s.digestDraw := rfl
end Fresh

section Consumed
variable (rest : List Event) (s : State)
@[simp] theorem consumed_state : (consumed rest s).state = s.state := rfl
@[simp] theorem consumed_totalLength : (consumed rest s).totalLength = s.totalLength := rfl
@[simp] theorem consumed_blockBuffer : (consumed rest s).blockBuffer = s.blockBuffer := rfl
@[simp] theorem consumed_blockFill : (consumed rest s).blockFill = s.blockFill := rfl
@[simp] theorem consumed_finalized : (consumed rest s).finalized = s.finalized := rfl
@[simp] theorem consumed_fault : (consumed rest s).fault = s.fault := rfl
@[simp] theorem consumed_input : (consumed rest s).input = rest := rfl
@[simp] theorem consumed_digestDraw : (consumed rest s).digestDraw = s.digestDraw + 1 := rfl
end Consumed

section Compress
variable (s : State)
@[simp] theorem compressBuffer_state : (compressBuffer s).state = compress s.state (bufBlock s.blockBuffer) := rfl
@[simp] theorem compressBuffer_totalLength : (compressBuffer s).totalLength = s.totalLength := rfl
@[simp] theorem compressBuffer_blockBuffer : (compressBuffer s).blockBuffer = s.blockBuffer := rfl
@[simp] theorem compressBuffer_blockFill : (compressBuffer s).blockFill = s.blockFill := rfl
@[simp] theorem compressBuffer_finalized : (compressBuffer s).finalized = s.finalized := rfl
@[simp] theorem compressBuffer_fault : (compressBuffer s).fault = s.fault := rfl
@[simp] theorem compressBuffer_input : (compressBuffer s).input = s.input := rfl
@[simp] theorem compressBuffer_digestDraw : (compressBuffer s).digestDraw = s.digestDraw := rfl
end Compress

section Absorb
variable (b : Byte) (s : State)
@[simp] theorem countByte_state : (countByte s).state = s.state := rfl
@[simp] theorem countByte_totalLength : (countByte s).totalLength = s.totalLength + 1 := rfl
@[simp] theorem countByte_blockBuffer : (countByte s).blockBuffer = s.blockBuffer := rfl
@[simp] theorem countByte_blockFill : (countByte s).blockFill = s.blockFill := rfl
@[simp] theorem countByte_finalized : (countByte s).finalized = s.finalized := rfl
@[simp] theorem countByte_fault : (countByte s).fault = s.fault := rfl
@[simp] theorem countByte_input : (countByte s).input = s.input := rfl
@[simp] theorem countByte_digestDraw : (countByte s).digestDraw = s.digestDraw := rfl

/-- The state `storeByte` has written its byte in: every field of `storeByte` is one of two. -/
theorem storeByte_eq :
    storeByte b s =
      { s with
        blockBuffer := bufWrite s.blockBuffer (fillOffset s) b
        state := if s.blockFill.toNat = 63 then
            compress s.state (bufBlock (bufWrite s.blockBuffer (fillOffset s) b)) else s.state
        blockFill := if s.blockFill.toNat = 63 then 0 else BitVec.ofNat 6 (s.blockFill.toNat + 1) } := by
  by_cases h : s.blockFill.toNat = 63
  · simp [storeByte, h, compressBuffer]
  · simp [storeByte, h]

theorem absorbByte_state : (absorbByte b s).state =
    if s.blockFill.toNat = 63 then
      compress s.state (bufBlock (bufWrite s.blockBuffer (fillOffset s) b)) else s.state := by
  simp only [absorbByte, storeByte_eq]; rfl
theorem absorbByte_blockFill : (absorbByte b s).blockFill =
    if s.blockFill.toNat = 63 then 0 else BitVec.ofNat 6 (s.blockFill.toNat + 1) := by
  simp only [absorbByte, storeByte_eq]; rfl
@[simp] theorem absorbByte_totalLength : (absorbByte b s).totalLength = s.totalLength + 1 := by
  simp [absorbByte, storeByte_eq]
@[simp] theorem absorbByte_blockBuffer :
    (absorbByte b s).blockBuffer = bufWrite s.blockBuffer (fillOffset s) b := by
  simp only [absorbByte, storeByte_eq]; rfl
@[simp] theorem absorbByte_finalized : (absorbByte b s).finalized = s.finalized := by
  simp [absorbByte, storeByte_eq]
@[simp] theorem absorbByte_fault : (absorbByte b s).fault = s.fault := by
  simp [absorbByte, storeByte_eq]
@[simp] theorem absorbByte_input : (absorbByte b s).input = s.input := by
  simp [absorbByte, storeByte_eq]
@[simp] theorem absorbByte_digestDraw : (absorbByte b s).digestDraw = s.digestDraw := by
  simp [absorbByte, storeByte_eq]
end Absorb

section Finalize
variable (s : State)
@[simp] theorem finalizeMessage_totalLength : (finalizeMessage s).totalLength = s.totalLength := by
  unfold finalizeMessage; split <;> rfl
@[simp] theorem finalizeMessage_blockFill : (finalizeMessage s).blockFill = s.blockFill := by
  unfold finalizeMessage; split <;> rfl
@[simp] theorem finalizeMessage_finalized : (finalizeMessage s).finalized = true := by
  unfold finalizeMessage; split <;> rfl
@[simp] theorem finalizeMessage_fault : (finalizeMessage s).fault = s.fault := by
  unfold finalizeMessage; split <;> rfl
@[simp] theorem finalizeMessage_input : (finalizeMessage s).input = s.input := by
  unfold finalizeMessage; split <;> rfl
@[simp] theorem finalizeMessage_digestDraw : (finalizeMessage s).digestDraw = s.digestDraw := by
  unfold finalizeMessage; split <;> rfl
end Finalize

end Sys2Proof.Machine
end

