-- ==== Sys2Proof/Laws/Exec.lean ====
section
/-! SUPPORT. What each entry test, each meaning and the step can do, said once: the provers cite these instead of
unfolding `exec` and `step`. -/

namespace Sys2Proof.Machine

/-! ### Entry tests (42_commands.md R140) -/

theorem halted_iff (s : State) : halted s = true ↔ s.fault ≠ 0#2 := by simp [halted]

theorem unlessHalted_of_running {s : State} (h : s.fault = 0#2) (k : State → StepOutcome) :
    unlessHalted s k = k s := by simp [unlessHalted, halted, h]

theorem unlessHalted_of_halted {s : State} (h : s.fault ≠ 0#2) (k : State → StepOutcome) :
    unlessHalted s k = .next s := by simp [unlessHalted, halted, h]

theorem unlessFinalized_of_accepting {s : State} (h : s.finalized = false) (k : State → StepOutcome) :
    unlessFinalized s k = k s := by simp [unlessFinalized, h]

theorem unlessFinalized_of_finalized {s : State} (h : s.finalized = true) (k : State → StepOutcome) :
    unlessFinalized s k = .next (raise .useAfterFinalize s) := by simp [unlessFinalized, h]

/-! ### Meanings -/

theorem exec_of_halted {s : State} (h : s.fault ≠ 0#2) (i : Instr) : exec i s = .next s := by
  cases i with
  | nop => exact unlessHalted_of_halted h fun s => .next s
  | init => exact unlessHalted_of_halted h fun s => .next (fresh s)
  | absorb b => exact unlessHalted_of_halted h fun s => unlessFinalized s fun s => .next (absorbByte b s)
  | finalize => exact unlessHalted_of_halted h fun s => unlessFinalized s fun s => .next (finalizeMessage s)

theorem execNop_eq (s : State) : execNop s = .next s := by
  unfold execNop unlessHalted; split <;> rfl

theorem execInit_of_running {s : State} (h : s.fault = 0#2) : execInit s = .next (fresh s) :=
  unlessHalted_of_running h _

theorem execAbsorb_of_active (b : Byte) {s : State} (h : s.Active) : execAbsorb b s = .next (absorbByte b s) := by
  rw [execAbsorb, unlessHalted_of_running h.1, unlessFinalized_of_accepting h.2]

theorem execAbsorb_of_finalized (b : Byte) {s : State} (h : s.fault = 0#2) (hf : s.finalized = true) :
    execAbsorb b s = .next (raise .useAfterFinalize s) := by
  rw [execAbsorb, unlessHalted_of_running h, unlessFinalized_of_finalized hf]

theorem execFinalize_of_active {s : State} (h : s.Active) : execFinalize s = .next (finalizeMessage s) := by
  rw [execFinalize, unlessHalted_of_running h.1, unlessFinalized_of_accepting h.2]

theorem execFinalize_of_finalized {s : State} (h : s.fault = 0#2) (hf : s.finalized = true) :
    execFinalize s = .next (raise .useAfterFinalize s) := by
  rw [execFinalize, unlessHalted_of_running h, unlessFinalized_of_finalized hf]

theorem rejectBeat_of_running {s : State} (h : s.fault = 0#2) : rejectBeat s = .next (raise .illegalBeat s) :=
  unlessHalted_of_running h _

theorem rejectBeat_of_halted {s : State} (h : s.fault ≠ 0#2) : rejectBeat s = .next s :=
  unlessHalted_of_halted h _

/-- Everything a command can do: nothing (halted, or NOP), the fresh state, a byte absorbed, a message finalized,
or UseAfterFinalize. -/
theorem exec_cases {i : Instr} {s t : State} (h : exec i s = .next t) :
    (s.fault ≠ 0#2 ∧ t = s) ∨
    (i = .nop ∧ t = s) ∨
    (i = .init ∧ s.fault = 0#2 ∧ t = fresh s) ∨
    ((∃ b, i = .absorb b ∧ s.Active ∧ t = absorbByte b s)) ∨
    (i = .finalize ∧ s.Active ∧ t = finalizeMessage s) ∨
    (((∃ b, i = .absorb b) ∨ i = .finalize) ∧ s.fault = 0#2 ∧ s.finalized = true ∧ t = raise .useAfterFinalize s) := by
  by_cases hf : s.fault = 0#2
  · cases i with
    | nop =>
      rw [exec, execNop_eq] at h
      exact .inr (.inl ⟨rfl, by injection h with h; exact h.symm⟩)
    | init =>
      rw [exec, execInit_of_running hf] at h
      exact .inr (.inr (.inl ⟨rfl, hf, by injection h with h; exact h.symm⟩))
    | absorb b =>
      cases hfin : s.finalized with
      | false =>
        rw [exec, execAbsorb_of_active b ⟨hf, hfin⟩] at h
        exact .inr (.inr (.inr (.inl ⟨b, rfl, ⟨hf, hfin⟩, by injection h with h; exact h.symm⟩)))
      | true =>
        rw [exec, execAbsorb_of_finalized b hf hfin] at h
        exact .inr (.inr (.inr (.inr (.inr ⟨.inl ⟨b, rfl⟩, hf, rfl, by injection h with h; exact h.symm⟩))))
    | finalize =>
      cases hfin : s.finalized with
      | false =>
        rw [exec, execFinalize_of_active ⟨hf, hfin⟩] at h
        exact .inr (.inr (.inr (.inr (.inl ⟨rfl, ⟨hf, hfin⟩, by injection h with h; exact h.symm⟩))))
      | true =>
        rw [exec, execFinalize_of_finalized hf hfin] at h
        exact .inr (.inr (.inr (.inr (.inr ⟨.inr rfl, hf, rfl, by injection h with h; exact h.symm⟩))))
  · rw [exec_of_halted hf] at h
    exact .inl ⟨hf, by injection h with h; exact h.symm⟩

/-! ### Steps -/

/-- Everything a reserved beat can do. -/
theorem rejectBeat_cases {s t : State} (h : rejectBeat s = .next t) :
    (s.fault ≠ 0#2 ∧ t = s) ∨ (s.fault = 0#2 ∧ t = raise .illegalBeat s) := by
  by_cases hf : s.fault = 0#2
  · rw [rejectBeat_of_running hf] at h; exact .inr ⟨hf, by injection h with h; exact h.symm⟩
  · rw [rejectBeat_of_halted hf] at h; exact .inl ⟨hf, by injection h with h; exact h.symm⟩

/-- The state once the first event of the input has been taken. -/
theorem takeEvent_cons {s : State} {e : Event} {rest : List Event} (h : s.input = e :: rest) :
    takeEvent s = some (e, consumed rest s) := by
  simp [takeEvent, h]

theorem takeEvent_nil {s : State} (h : s.input = []) : takeEvent s = none := by simp [takeEvent, h]

theorem step_idle {s : State} (h : s.input = []) : step s = .next s := by
  simp [step, takeEvent_nil h]

theorem step_reset {s : State} {rest : List Event} (h : s.input = .reset :: rest) :
    step s = .next (hardwareReset (consumed rest s)) := by
  simp [step, takeEvent_cons h]

theorem step_command {s : State} {w : Beat} {rest : List Event} {i : Instr} (h : s.input = .beat w :: rest)
    (hd : decode w = .command i) :
    step s = exec i (consumed rest s) := by
  simp [step, takeEvent_cons h, hd]

theorem step_illegal {s : State} {w : Beat} {rest : List Event} (h : s.input = .beat w :: rest)
    (hd : decode w = .illegal) :
    step s = rejectBeat (consumed rest s) := by
  simp [step, takeEvent_cons h, hd]

/-- A run goes on from the state its first step answers. -/
theorem runSteps_succ {s t : State} (k : Nat) (h : step s = .next t) : runSteps (k + 1) s = runSteps k t := by
  simp [runSteps, h]

/-- One step of the host's run, of any machine. -/
theorem core_run_succ (M : Host.Core) {s t : M.State} (k : Nat) (h : M.step s = .next t) :
    M.run (k + 1) s = M.run k t := by
  simp [Host.Core.run, h]

/-- Where the steps complete, `runSteps` is the host's own run of this machine. -/
theorem runSteps_eq_core_run {k : Nat} {s t : State} (h : runSteps k s = .next t) :
    Host.Core.run Sys2Proof.core k s = .next t := by
  induction k generalizing s with
  | zero => exact h
  | succ k ih =>
    cases hs : step s with
    | next u => exact (core_run_succ Sys2Proof.core k hs).trans (ih (by rwa [runSteps_succ k hs] at h))
    | fault r => cases r
    | refused r => simp [runSteps, hs] at h

/-- Everything a step can do: idle, a reset, a reserved beat, or a command. -/
theorem step_cases {s t : State} (h : step s = .next t) :
    (s.input = [] ∧ t = s) ∨
    ∃ e rest, s.input = e :: rest ∧
      ((e = .reset ∧ t = hardwareReset (consumed rest s)) ∨
       (∃ w, e = .beat w ∧ decode w = .illegal ∧
          rejectBeat (consumed rest s) = .next t) ∨
       (∃ w i, e = .beat w ∧ decode w = .command i ∧
          exec i (consumed rest s) = .next t)) := by
  cases hin : s.input with
  | nil => rw [step_idle hin] at h; exact .inl ⟨rfl, by injection h with h; exact h.symm⟩
  | cons e rest =>
    refine .inr ⟨e, rest, rfl, ?_⟩
    cases e with
    | reset => rw [step_reset hin] at h; exact .inl ⟨rfl, by injection h with h; exact h.symm⟩
    | beat w =>
      cases hd : decode w with
      | illegal => exact .inr (.inl ⟨w, rfl, hd, (step_illegal hin hd) ▸ h⟩)
      | command i => exact .inr (.inr ⟨w, i, rfl, hd, (step_command hin hd) ▸ h⟩)

end Sys2Proof.Machine
end

