-- ==== Sys2Proof/Laws/Finalize.lean ====
section
/-! SUPPORT. The padding sub-steps of FINALIZE (42_commands.md R147), byte by byte, and that ABSORB and FINALIZE keep
the buffer's canonical form. -/

namespace Sys2Proof.Machine

variable {s : State}

theorem fillOffset_val (s : State) : (fillOffset s).val = s.blockFill.toNat := rfl

theorem wf_absorbByte (hm : s.blockBuffer.wf = true) (b : Byte) : (absorbByte b s).blockBuffer.wf = true := by
  rw [absorbByte_blockBuffer]; exact wf_bufWrite hm _ b

/-! ### What each sub-step writes to the buffer -/

theorem padMark_blockBuffer (s : State) : (padMark s).blockBuffer =
    memWrite s.blockBuffer (fillOffset s).val 1 0x80 (Nat.succ_le_of_lt (fillOffset s).isLt) := rfl

theorem padZero_blockBuffer (s : State) : (padZero s).blockBuffer =
    zeroFill s.blockBuffer (s.blockFill.toNat + 1) (if s.blockFill.toNat ≤ 55 then 55 else 63) := by
  simp only [padZero]

theorem padZero2_blockBuffer (s : State) : (padZero2 s).blockBuffer = zeroFill s.blockBuffer 0 55 := by
  simp only [padZero2]

theorem padLen_blockBuffer (s : State) : (padLen s).blockBuffer =
    memWrite s.blockBuffer 56 8 (lengthField s) (by omega) := rfl

@[simp] theorem padMark_blockFill (s : State) : (padMark s).blockFill = s.blockFill := by simp only [padMark]
@[simp] theorem padMark_totalLength (s : State) : (padMark s).totalLength = s.totalLength := by simp only [padMark]
@[simp] theorem padMark_state (s : State) : (padMark s).state = s.state := by simp only [padMark]
@[simp] theorem padZero_totalLength (s : State) : (padZero s).totalLength = s.totalLength := by simp only [padZero]
@[simp] theorem padZero_state (s : State) : (padZero s).state = s.state := by simp only [padZero]
@[simp] theorem padZero2_totalLength (s : State) : (padZero2 s).totalLength = s.totalLength := by simp only [padZero2]
@[simp] theorem padZero2_state (s : State) : (padZero2 s).state = s.state := by simp only [padZero2]
@[simp] theorem padLen_state (s : State) : (padLen s).state = s.state := by simp only [padLen]

theorem wf_padMark (hm : s.blockBuffer.wf = true) : (padMark s).blockBuffer.wf = true := by
  rw [padMark_blockBuffer]; exact wf_memWrite hm _ _ _ _

theorem bufRead_padMark (hm : s.blockBuffer.wf = true) (a : Fin 64) :
    bufRead (padMark s).blockBuffer a = if a.val = s.blockFill.toNat then 0x80#8 else bufRead s.blockBuffer a := by
  rw [padMark_blockBuffer, bufRead_memWrite hm, fillOffset_val]
  by_cases h : a.val = s.blockFill.toNat
  · rw [if_pos (by omega), if_pos h]; simp
  · rw [if_neg (by omega), if_neg h]

theorem wf_padZero (hm : s.blockBuffer.wf = true) : (padZero s).blockBuffer.wf = true := by
  rw [padZero_blockBuffer]; exact wf_zeroFill hm _ _

theorem bufRead_padZero (hm : s.blockBuffer.wf = true) (a : Fin 64) :
    bufRead (padZero s).blockBuffer a =
      if s.blockFill.toNat + 1 ≤ a.val ∧ a.val ≤ (if s.blockFill.toNat ≤ 55 then 55 else 63) then 0#8
      else bufRead s.blockBuffer a := by
  rw [padZero_blockBuffer, bufRead_zeroFill hm]

theorem wf_padZero2 (hm : s.blockBuffer.wf = true) : (padZero2 s).blockBuffer.wf = true := by
  rw [padZero2_blockBuffer]; exact wf_zeroFill hm _ _

theorem bufRead_padZero2 (hm : s.blockBuffer.wf = true) (a : Fin 64) :
    bufRead (padZero2 s).blockBuffer a = if a.val ≤ 55 then 0#8 else bufRead s.blockBuffer a := by
  rw [padZero2_blockBuffer, bufRead_zeroFill hm]
  simp only [Nat.zero_le, true_and]

theorem wf_padLen (hm : s.blockBuffer.wf = true) : (padLen s).blockBuffer.wf = true := by
  rw [padLen_blockBuffer]; exact wf_memWrite hm _ _ _ _

theorem bufRead_padLen (hm : s.blockBuffer.wf = true) (a : Fin 64) :
    bufRead (padLen s).blockBuffer a =
      if 56 ≤ a.val then (lengthField s).extractLsb' (8 * (63 - a.val)) 8 else bufRead s.blockBuffer a := by
  rw [padLen_blockBuffer, bufRead_memWrite hm]
  by_cases h : 56 ≤ a.val
  · rw [if_pos (by omega), if_pos h]
    have : 8 - 1 - (a.val - 56) = 63 - a.val := by omega
    rw [this]
  · rw [if_neg (by omega), if_neg h]

/-! ### The two paths of FINALIZE (42_commands.md R146) -/

/-- One block. -/
theorem finalizeMessage_short (h : s.blockFill.toNat ≤ 55) :
    finalizeMessage s = padDone (padFlush (padLen (padZero (padMark s)))) := if_pos h

/-- Two blocks. -/
theorem finalizeMessage_long (h : ¬ s.blockFill.toNat ≤ 55) :
    finalizeMessage s = padDone (padFlush (padLen (padZero2 (padFlush1 (padZero (padMark s)))))) := if_neg h

@[simp] theorem padDone_state (s : State) : (padDone s).state = s.state := rfl
@[simp] theorem padDone_blockBuffer (s : State) : (padDone s).blockBuffer = s.blockBuffer := rfl
@[simp] theorem padFlush_state (s : State) : (padFlush s).state = compress s.state (bufBlock s.blockBuffer) := rfl
@[simp] theorem padFlush_blockBuffer (s : State) : (padFlush s).blockBuffer = s.blockBuffer := rfl
@[simp] theorem padFlush1_state (s : State) : (padFlush1 s).state = compress s.state (bufBlock s.blockBuffer) := rfl
@[simp] theorem padFlush1_blockBuffer (s : State) : (padFlush1 s).blockBuffer = s.blockBuffer := rfl
@[simp] theorem padFlush1_totalLength (s : State) : (padFlush1 s).totalLength = s.totalLength := rfl

theorem wf_finalizeMessage (hm : s.blockBuffer.wf = true) : (finalizeMessage s).blockBuffer.wf = true := by
  have h0 := wf_padZero (wf_padMark hm)
  by_cases h : s.blockFill.toNat ≤ 55
  · rw [finalizeMessage_short h, padDone_blockBuffer, padFlush_blockBuffer]
    exact wf_padLen h0
  · rw [finalizeMessage_long h, padDone_blockBuffer, padFlush_blockBuffer]
    exact wf_padLen (wf_padZero2 (by rw [padFlush1_blockBuffer]; exact h0))

end Sys2Proof.Machine
end

