-- ==== Sys2Proof/Laws/Live.lean ====
section
/-! SUPPORT. The live bytes of the buffer (10_state.md R23, R36): their length, their elements, what an absorbed byte
does to them, and the flushed block as a byte sequence. -/

namespace Sys2Proof.Machine

@[simp] theorem length_liveBytes (s : State) : (liveBytes s).length = s.blockFill.toNat := by simp [liveBytes]

theorem getElem_liveBytes (s : State) (a : Nat) (h : a < (liveBytes s).length) :
    (liveBytes s)[a] = cellRead s.blockBuffer a := by simp [liveBytes]

/-- Two states with the same fill have the same live bytes when they read alike below it. -/
theorem liveBytes_congr {s t : State} (hf : s.blockFill = t.blockFill)
    (h : ∀ a : Fin 64, a.val < s.blockFill.toNat → bufRead s.blockBuffer a = bufRead t.blockBuffer a) :
    liveBytes s = liveBytes t := by
  simp only [liveBytes, ← hf]
  refine List.map_congr_left fun a ha => ?_
  have ha := List.mem_range.mp ha
  exact h ⟨a, lt_trans ha s.blockFill.isLt⟩ ha

/-- Equal live bytes read alike below the fill. -/
theorem bufRead_eq_of_liveBytes {s t : State} (h : liveBytes s = liveBytes t) (a : Fin 64)
    (ha : a.val < s.blockFill.toNat) : bufRead s.blockBuffer a = bufRead t.blockBuffer a := by
  have hl : s.blockFill.toNat = t.blockFill.toNat := by simpa using congrArg List.length h
  have := getElem_liveBytes s a.val (by simpa using ha)
  have h' := getElem_liveBytes t a.val (by simpa [← hl] using ha)
  simp only [bufRead]
  rw [← this, ← h']
  simp [h]

theorem liveBytes_getD (s : State) (a : Fin 64) (h : a.val < s.blockFill.toNat) :
    (liveBytes s).getD a.val 0 = bufRead s.blockBuffer a := by
  rw [List.getD_eq_getElem _ _ (by simpa using h), getElem_liveBytes]; rfl

/-- Below a full buffer an absorbed byte is appended to the live bytes. -/
theorem liveBytes_absorbByte {s : State} (hm : s.blockBuffer.wf = true) (b : Byte) (h : s.blockFill.toNat ≠ 63) :
    liveBytes (absorbByte b s) = liveBytes s ++ [b] := by
  have hlt := s.blockFill.isLt
  have hfill : (absorbByte b s).blockFill.toNat = s.blockFill.toNat + 1 := by
    rw [absorbByte_blockFill, if_neg h, BitVec.toNat_ofNat]; omega
  simp only [liveBytes, hfill, List.range_succ, List.map_append, List.map_cons, List.map_nil,
    absorbByte_blockBuffer]
  congr 1
  · refine List.map_congr_left fun a ha => ?_
    have ha := List.mem_range.mp ha
    exact cellRead_cellWrite_ne _ _ (by simp [fillOffset]; omega)
  · exact congrArg (fun x => [x]) (bufRead_bufWrite_self hm (fillOffset s) b)

theorem liveBytes_of_fill_zero {s : State} (h : s.blockFill = 0) : liveBytes s = [] := by
  simp [liveBytes, h]

/-- The block a completing byte flushes is the live bytes and that byte. -/
theorem bufBlock_absorb {s : State} (hm : s.blockBuffer.wf = true) (b : Byte) (h : s.blockFill.toNat = 63) :
    bufBlock (bufWrite s.blockBuffer (fillOffset s) b) = blockOfBytes (liveBytes s ++ [b]) := by
  ext i hi
  rw [getElem_bufBlock, getElem_blockOfBytes, bufRead_bufWrite hm]
  by_cases hi63 : i = 63
  · subst hi63
    rw [if_pos (Fin.ext (by simp [fillOffset_val, h]))]
    simp [h]
  · rw [if_neg (fun e => hi63 (by simpa [fillOffset_val, h] using congrArg Fin.val e))]
    rw [← liveBytes_getD s ⟨i, hi⟩ (by simp; omega)]
    simp [List.getElem?_append_left (show i < (liveBytes s).length by simp; omega)]

end Sys2Proof.Machine
end

