-- ==== Sys2Proof/Laws/PerInstr.lean ====
section
/-! SUPPORT. Statements made of every command as syntax, one lemma per constructor. -/

namespace Sys2Proof.Laws.RoundTrip

/-- Decoding the encoding of a well-formed command gives it back (30_encoding.md R86). -/
def Statement (i : Instr) : Prop := i.wellFormed = true → decode (encode i) = .command i

theorem nop : Statement .nop := fun _ => by decide

theorem init : Statement .init := fun _ => by decide

theorem absorb (b : Byte) : Statement (.absorb b) := fun _ => by
  revert b; unfold encode; decide +revert

theorem finalize : Statement .finalize := fun _ => by decide

end Sys2Proof.Laws.RoundTrip
end

