-- ==== Sys2Proof/Machine/Listing.lean ====
section
/-! DEFINITION. The command listings of 30_encoding.md R87: one command a line, upper-case mnemonic, operand in
hexadecimal; `RESET` for the reset event; `.beat` for a raw beat, the only way to write a reserved one. Notation for
readers of a run; no part of the machine's behaviour. -/

namespace Sys2Proof.Machine

/-- One hexadecimal digit, upper case. -/
def hexDigit (n : Nat) : String :=
  ["0", "1", "2", "3", "4", "5", "6", "7", "8", "9", "A", "B", "C", "D", "E", "F"].getD (n % 16) "0"

/-- A byte as `0x` and two digits. -/
def hexByte (b : Byte) : String := "0x" ++ hexDigit (b.toNat / 16) ++ hexDigit b.toNat

/-- A beat as `0x` and three digits. -/
def hexBeat (w : Beat) : String :=
  "0x" ++ hexDigit (w.toNat / 256) ++ hexDigit (w.toNat / 16) ++ hexDigit w.toNat

/-- The line of a command (R87). -/
def commandLine : Instr → String
  | .absorb b => (Instr.absorb b).mnemonic ++ " " ++ hexByte b
  | .nop => Instr.nop.mnemonic
  | .init => Instr.init.mnemonic
  | .finalize => Instr.finalize.mnemonic

/-- The line of an event (R87). -/
def eventLine : Event → String
  | .reset => "RESET"
  | .beat w =>
    match decode w with
    | .command i => commandLine i
    | .illegal => ".beat " ++ hexBeat w

end Sys2Proof.Machine
end

