-- ==== Sys2Proof/Tests/Slice0.lean ====
section
/-! SUPPORT. Tests on values taken from spec/ (95_test_vectors.md, 96_test_vectors_datapath.md, the rules), and for
every statement with hypotheses a witness that meets them. -/

namespace Sys2Proof.Tests

open Sys2Proof.Machine

/-! ### States the tests start from -/

/-- `n` cells that hold the character `a`. -/
def cellsOfA (n : Nat) : Memory := (List.range n).map fun k => (k, 0x61#8)

/-- A fresh engine that has absorbed `n` bytes of `a`, for `n` in 0..63. -/
def holding (n : Nat) : State :=
  { State.reset with
    totalLength := BitVec.ofNat 64 n, blockFill := BitVec.ofNat 6 n, blockBuffer := cellsOfA n }

/-- The same engine with one more beat presented. -/
def offered (w : Beat) (s : State) : State := { s with input := [.beat w] }

/-- An engine in phase DONE. -/
def done : State := { State.reset with finalized := true }

/-- Engines in phase HALT: after UseAfterFinalize, and after an illegal beat in phase ACTIVE or DONE. -/
def haltedUse : State := { done with fault := 1 }
def haltedIllegal : State := { holding 1 with fault := 2 }
def haltedDone : State := { done with fault := 2 }

/-- The state an outcome leaves. -/
def left (o : StepOutcome) : State :=
  match o with
  | .next t => t
  | .fault _ => State.reset
  | .refused _ => State.reset

/-! ### Well-formedness: an ill-formed beat for each range of R85, at both ends, and the legal neighbours -/

theorem test_wellFormed_refuses_nop_with_operand :
    Beat.wellFormed 0x001 = false ∧ Beat.wellFormed 0x0FF = false ∧ Beat.wellFormed 0x000 = true := by decide

theorem test_wellFormed_refuses_init_with_operand :
    Beat.wellFormed 0x101 = false ∧ Beat.wellFormed 0x1FF = false ∧ Beat.wellFormed 0x100 = true := by decide

theorem test_wellFormed_refuses_finalize_with_operand :
    Beat.wellFormed 0x301 = false ∧ Beat.wellFormed 0x3FF = false ∧ Beat.wellFormed 0x300 = true := by decide

theorem test_wellFormed_every_data_byte :
    Beat.wellFormed 0x200 = true ∧ Beat.wellFormed 0x2FF = true ∧ (Instr.absorb 0x80).wellFormed = true := by decide

/-! ### Decoding: the words of 95_test_vectors.md section 2.7, bit by bit -/

theorem test_decode_nop : decode 0b0000000000 = .command .nop := by decide
theorem test_decode_init : decode 0b0100000000 = .command .init := by decide
theorem test_decode_absorb :
    decode 0b1000000000 = .command (.absorb 0x00) ∧ decode 0b1001100001 = .command (.absorb 0x61) ∧
    decode 0b1010000000 = .command (.absorb 0x80) ∧ decode 0b1011111111 = .command (.absorb 0xFF) := by decide
theorem test_decode_finalize : decode 0b1100000000 = .command .finalize := by decide
theorem test_decode_reserved :
    decode 0b0000000001 = .illegal ∧ decode 0b0010000000 = .illegal ∧ decode 0b0011111111 = .illegal ∧
    decode 0b0100000001 = .illegal ∧ decode 0b0111111111 = .illegal ∧ decode 0b1100000001 = .illegal ∧
    decode 0b1110000000 = .illegal ∧ decode 0b1111111111 = .illegal := by decide

/-- 30_encoding.md R86: the four encodings. -/
theorem test_encode :
    encode .nop = 0b0000000000 ∧ encode .init = 0b0100000000 ∧ encode (.absorb 0x61) = 0b1001100001 ∧
    encode .finalize = 0b1100000000 := by decide

/-- Opcode-table words: a row's word, a word in two bytes of storage, a reserved one, one too wide for the port. -/
theorem test_table_words :
    decodeTableWord 10 0x261 = some (.absorb 0x61) ∧ decodeTableWord 16 0x300 = some .finalize ∧
    decodeTableWord 16 0x101 = none ∧ decodeTableWord 16 0x400 = none := by decide

theorem test_presented_word_is_the_first_event :
    (State.reset.withFetchWord 16 0x200).input = [.beat 0x200] ∧ (done.withFetchWord 16 0x400).input = [] := by decide

/-- 30_encoding.md R87: lines of a listing. -/
theorem test_listing_lines :
    eventLine .reset = "RESET" ∧ eventLine (.beat 0x261) = "ABSORB 0x61" ∧ eventLine (.beat 0x300) = "FINALIZE" ∧
    eventLine (.beat 0x101) = ".beat 0x101" := by decide

/-! ### One step of each command (95_test_vectors.md sections 2.4 to 2.9) -/

/-- Section 2.8: NOP in phase DONE keeps the digest valid. -/
theorem test_nop_done : status (left (step (offered 0x000 done))) = 0x11 := by decide +kernel

/-- Section 2.8: INIT in phase DONE goes back to ACTIVE and the digest is gone. -/
theorem test_init_done :
    status (left (step (offered 0x100 { done with state := Vector.replicate 8 7, totalLength := 9 }))) = 0x00 ∧
    left (exec .init { done with state := Vector.replicate 8 7, totalLength := 9 }) = State.reset := by
  decide +kernel

/-- Section 2.6: the byte `0x00` is stored like any other, here over a dead byte, and becomes live. -/
theorem test_absorb_zero_over_dead_byte :
    left (step (offered 0x200 { holding 1 with blockBuffer := [(0, 0x80), (1, 0x42)] })) =
      { holding 2 with blockBuffer := [(0, 0x80)], digestDraw := 1 } := by decide +kernel

/-- Section 2.6: the 64th byte compresses the buffer and `block_fill` returns to 0; section 2.9: the counter wraps. -/
theorem test_absorb_flushes_and_wraps :
    (left (step (offered 0x261 (holding 63)))).state =
      #v[0xDF5BB81C, 0xE81E0626, 0xFB45A894, 0x4FD40F31, 0xB25E6816, 0xD6D499C1, 0xAB904929, 0x00635E66] ∧
    (left (step (offered 0x261 (holding 63)))).blockFill = 0 ∧
    (left (step (offered 0x261 { State.reset with totalLength := 0xFFFFFFFFFFFFFFFF }))).totalLength = 0 := by
  decide +kernel

/-- L1-1: the empty message right after reset. -/
theorem test_finalize_empty_message :
    digest (left (step (offered 0x300 State.reset))) =
      0xE3B0C44298FC1C149AFBF4C8996FB92427AE41E4649B934CA495991B7852B855 := by decide +kernel

/-- Section 2.5, `n = 56`: the shortest message that takes the two-block path. -/
theorem test_finalize_two_blocks :
    (left (step (offered 0x300 (holding 56)))).state =
      #v[0xB35439A4, 0xAC6F0948, 0xB6D6F9E3, 0xC6AF0F5F, 0x590CE20F, 0x1BDE7090, 0xEF797068, 0x6EC6738A] := by
  decide +kernel

/-- Section 2.8: the `status` after each misuse. -/
theorem test_misuse_status :
    status (left (step (offered 0x300 done))) = 0x07 ∧ status (left (step (offered 0x261 done))) = 0x07 ∧
    status (left (step (offered 0x101 (holding 1)))) = 0x0A ∧ status (left (step (offered 0x301 done))) = 0x0B ∧
    status (left (step (offered 0x0FF State.reset))) = 0x0A := by decide +kernel

/-- Section 2.8: a halted engine discards INIT; a reset event clears the fault. -/
theorem test_halt_and_reset :
    status (left (step (offered 0x100 haltedUse))) = 0x07 ∧
    left (step { haltedUse with input := [.reset] }) = { State.reset with digestDraw := 1 } := by decide +kernel

/-! ### The datapath (96_test_vectors_datapath.md sections 2.1 to 2.3) -/

theorem test_word_functions :
    add32 0x6A09E667 0x506E3058 = 0xBA7816BF ∧ add32 0xFFFFFFFF 0xFFFFFFFF = 0xFFFFFFFE ∧
    rotr 0x61626380 13 = 0x1C030B13 ∧ rotr 0x00000001 25 = 0x00000080 ∧ shr 0x80000000 3 = 0x10000000 ∧
    not32 0x6A09E667 = 0x95F61998 ∧ ch 0xF0F0F0F0 0xAAAAAAAA 0x55555555 = 0xA5A5A5A5 ∧
    maj 0xF0F0F0F0 0xCCCCCCCC 0xAAAAAAAA = 0xE8E8E8E8 := by decide +kernel

theorem test_sigma_functions :
    bigS0 0x12345678 = 0x66146474 ∧ bigS1 0x12345678 = 0x3561ABDA ∧ smallS0 0x12345678 = 0xE7FCE6EE ∧
    smallS1 0x12345678 = 0xA1F78649 ∧ bigS0 0x00000001 = 0x40080400 ∧ bigS1 0x00000001 = 0x04200080 ∧
    smallS0 0xFFFFFFFF = 0x1FFFFFFF ∧ smallS1 0xFFFFFFFF = 0x003FFFFF := by decide +kernel

/-- Block A of section 2.2: the padded message "abc". -/
def blockA : Block := blockOfBytes (paddedMessage [0x61, 0x62, 0x63])

theorem test_schedule_of_block_A :
    (schedule blockA)[0] = 0x61626380 ∧ (schedule blockA)[15] = 0x00000018 ∧ (schedule blockA)[16] = 0x61626380 ∧
    (schedule blockA)[17] = 0x000F0000 ∧ (schedule blockA)[18] = 0x7DA86405 ∧ (schedule blockA)[30] = 0x702138A4 ∧
    (schedule blockA)[63] = 0x12B1EDEB := by decide +kernel

/-- Section 2.3, rows 0 and 1 of the table. -/
theorem test_first_rounds_of_block_A :
    roundAt (schedule blockA) 0 (roundInit tableH) =
      ⟨0x5D6AEBCD, 0x6A09E667, 0xBB67AE85, 0x3C6EF372, 0xFA2A4622, 0x510E527F, 0x9B05688C, 0x1F83D9AB⟩ ∧
    rounds (schedule blockA) 2 (by decide) (roundInit tableH) =
      ⟨0x5A6AD9AD, 0x5D6AEBCD, 0x6A09E667, 0xBB67AE85, 0x78CE7989, 0xFA2A4622, 0x510E527F, 0x9B05688C⟩ := by
  decide +kernel

/-- Section 2.4: `compress` away from the padding rules, and by an implementation with sixteen schedule words. -/
theorem test_compress_of_zeros :
    compress (Vector.replicate 8 0) (Vector.replicate 64 0) =
      #v[0x7CA51614, 0x425C3BA8, 0xCE54DD2F, 0xC2020AE7, 0xB6E574D1, 0x98136D0F, 0xAE7E26CC, 0xBF0BE7A6] := by
  decide +kernel

theorem test_windowed_compress_of_zeros :
    compressWindowed (Vector.replicate 8 0) (Vector.replicate 64 0) =
      #v[0x7CA51614, 0x425C3BA8, 0xCE54DD2F, 0xC2020AE7, 0xB6E574D1, 0x98136D0F, 0xAE7E26CC, 0xBF0BE7A6] := by
  decide +kernel

/-! ### Byte order, the length field, the burst form (95_test_vectors.md sections 2.6, 2.9, 2.10) -/

theorem test_length_field :
    lengthField { State.reset with totalLength := 0x1FFFFFFFFFFFFFFF } = 0xFFFFFFFFFFFFFFF8 ∧
    lengthField { State.reset with totalLength := 0x2000000000000000 } = 0 ∧
    lengthField { State.reset with totalLength := 0x2000000000000001 } = 8 ∧
    be64Bytes (lengthField { State.reset with totalLength := 0x100000005 }) = [0, 0, 0, 0x08, 0, 0, 0, 0x28] := by
  decide +kernel

theorem test_byte_order :
    be32 0x61 0x62 0x63 0x80 = 0x61626380 ∧
    memWrite [] 56 8 0x0123456789ABCDEF (by decide) =
      [(56, 0x01), (57, 0x23), (58, 0x45), (59, 0x67), (60, 0x89), (61, 0xAB), (62, 0xCD), (63, 0xEF)] ∧
    memRead (memWrite [] 56 8 0x18 (by decide)) 60 4 (by decide) = 0x18 ∧
    (digestOfWords #v[0xBA7816BF, 0, 0, 0, 0, 0, 0, 0xF20015AD]).extractLsb' 248 8 = 0xBA ∧
    (digestOfWords #v[0xBA7816BF, 0, 0, 0, 0, 0, 0, 0xF20015AD]).extractLsb' 0 8 = 0xAD := by decide +kernel

/-- Section 2.6: a second UPDATE after "abc", by its length: 0, 10, 60, 61 and 62 bytes. -/
theorem test_update_burst_lengths :
    ([0, 10, 60, 61, 62].map fun n =>
      let t := updateBurst (List.replicate n 0x7A) (holding 3)
      (t.blockFill.toNat, t.totalLength.toNat)) = [(3, 3), (13, 13), (63, 63), (0, 64), (1, 65)] := by decide +kernel

/-! ### Witnesses: for every statement with hypotheses, values that meet all of them together

Where a statement has clauses over one input, each clause has its witness, at the ends of its range. -/

/-- Phases ACTIVE (empty, one byte short of a block), DONE and HALT, each with the event the statement asks for. -/
theorem test_witness_ResetEventMakesFresh :
    ({ holding 63 with input := [.reset] } : State).input = .reset :: [] ∧
    ({ done with input := [.reset, .beat 0x300] } : State).input = .reset :: [.beat 0x300] ∧
    ({ haltedUse with input := [.reset] } : State).input = .reset :: [] := ⟨rfl, rfl, rfl⟩

/-- Also for `InitMakesFresh`: both clauses. -/
theorem test_witness_ResetAndInitAgree : (holding 63).fault = 0 ∧ done.fault = 0 ∧ haltedIllegal.fault ≠ 0 := by decide

theorem test_witness_NothingSurvivesInit :
    (holding 5).fault = 0 ∧ done.fault = 0 ∧ (holding 5).SameOutside done ∧ holding 5 ≠ done := by decide

theorem test_witness_NopChangesNothing :
    Beat.op 0x001 = 0 ∧ Beat.imm8 0x001 ≠ 0 ∧ Beat.op 0x0FF = 0 ∧ Beat.imm8 0x0FF ≠ 0 := by decide

theorem test_witness_AbsorbStoresByte :
    ((holding 0).Active ∧ (holding 0).blockBuffer.wf = true ∧ (holding 0).blockFill ≠ 63) ∧
    ((holding 62).Active ∧ (holding 62).blockBuffer.wf = true ∧ (holding 62).blockFill ≠ 63) := by decide

theorem test_witness_AbsorbFlushesFullBlock :
    (holding 63).Active ∧ (holding 63).blockBuffer.wf = true ∧ (holding 63).blockFill = 63 := by decide

/-- Also for `FinalizeCompressesPaddedTail` and `LengthFieldIsBitLength`. -/
theorem test_witness_FinalizeOneBlock :
    ((holding 0).Active ∧ (holding 0).blockBuffer.wf = true ∧ (holding 0).blockFill.toNat ≤ 55) ∧
    ((holding 55).Active ∧ (holding 55).blockBuffer.wf = true ∧ (holding 55).blockFill.toNat ≤ 55) := by decide

/-- Also for `FinalizeCompressesPaddedTail`. -/
theorem test_witness_FinalizeTwoBlocks :
    ((holding 56).Active ∧ (holding 56).blockBuffer.wf = true ∧ 56 ≤ (holding 56).blockFill.toNat) ∧
    ((holding 63).Active ∧ (holding 63).blockBuffer.wf = true ∧ 56 ≤ (holding 63).blockFill.toNat) := by decide

/-- The longest message whose length still fits. -/
theorem test_witness_LengthFieldIsBitLength :
    ({ State.reset with totalLength := 0x1FFFFFFFFFFFFFFF } : State).totalLength.toNat < Config.maxLen ∧
    ({ State.reset with totalLength := 0x1FFFFFFFFFFFFFFF } : State).Active ∧
    ({ State.reset with totalLength := 0x1FFFFFFFFFFFFFFF } : State).blockBuffer.wf = true := by decide

/-- A finalized engine, with each command: FINALIZE and ABSORB for the first clause, NOP and INIT for the second. -/
theorem test_witness_UseAfterFinalizeRaised :
    (done.fault = 0 ∧ done.finalized = true) ∧
    (Instr.finalize = .finalize ∨ ∃ b, Instr.finalize = .absorb b) ∧
    (Instr.absorb 0xFF = .finalize ∨ ∃ b, Instr.absorb 0xFF = .absorb b) ∧
    (Instr.nop = .nop ∨ Instr.nop = .init) ∧ (Instr.init = .nop ∨ Instr.init = .init) :=
  ⟨⟨rfl, rfl⟩, .inl rfl, .inr ⟨_, rfl⟩, .inl rfl, .inr rfl⟩

/-- A reserved beat from each range, in phases ACTIVE and DONE. -/
theorem test_witness_IllegalBeatRaised :
    ((offered 0x001 (holding 1)).fault = 0 ∧ (offered 0x001 (holding 1)).input = .beat 0x001 :: [] ∧
      Beat.reserved 0x001 = true) ∧
    ((offered 0x1FF done).fault = 0 ∧ (offered 0x1FF done).input = .beat 0x1FF :: [] ∧ Beat.reserved 0x1FF = true) ∧
    ((offered 0x301 done).fault = 0 ∧ (offered 0x301 done).input = .beat 0x301 :: [] ∧
      Beat.reserved 0x301 = true) := by decide

/-- A halted engine of each code, before a legal and a reserved beat. -/
theorem test_witness_HaltedDiscardsEverything :
    ((offered 0x100 haltedUse).fault ≠ 0 ∧ (offered 0x100 haltedUse).input = .beat 0x100 :: []) ∧
    ((offered 0x101 haltedDone).fault ≠ 0 ∧ (offered 0x101 haltedDone).input = .beat 0x101 :: []) := by decide

/-- The three ways: code 2 raised, code 1 raised, nothing raised. -/
theorem test_witness_FaultsRaisedExactly :
    ((offered 0x101 done).fault = 0 ∧ step (offered 0x101 done) = .next (raise .illegalBeat (consumed [] done)) ∧
      Beat.reserved 0x101 = true) ∧
    ((offered 0x300 done).fault = 0 ∧ step (offered 0x300 done) = .next (raise .useAfterFinalize (consumed [] done)) ∧
      decode 0x300 = .command .finalize) ∧
    ((offered 0x000 done).fault = 0 ∧ step (offered 0x000 done) = .next (consumed [] done)) :=
  ⟨⟨rfl, rfl, rfl⟩, ⟨rfl, rfl, rfl⟩, rfl, rfl⟩

/-- Before a reset event, before a beat, and with nothing presented. -/
theorem test_witness_FaultStaysUntilReset :
    (haltedUse.fault ≠ 0 ∧ step { haltedUse with input := [.reset] } = .next (hardwareReset (consumed [] haltedUse))) ∧
    (haltedDone.fault ≠ 0 ∧ step (offered 0x100 haltedDone) = .next (consumed [] haltedDone)) ∧
    step haltedUse = .next haltedUse :=
  ⟨⟨by decide, rfl⟩, ⟨by decide, rfl⟩, rfl⟩

/-- Each command as the next beat; the state may be in any phase. -/
theorem test_witness_StepRunsDecodedCommand :
    ((offered 0x000 haltedUse).input = .beat 0x000 :: [] ∧ decode 0x000 = .command .nop ∧
      Instr.nop.wellFormed = true) ∧
    ((offered 0x100 done).input = .beat 0x100 :: [] ∧ decode 0x100 = .command .init ∧ Instr.init.wellFormed = true) ∧
    ((offered 0x2FF (holding 63)).input = .beat 0x2FF :: [] ∧ decode 0x2FF = .command (.absorb 0xFF) ∧
      (Instr.absorb 0xFF).wellFormed = true) ∧
    ((offered 0x300 (holding 56)).input = .beat 0x300 :: [] ∧ decode 0x300 = .command .finalize ∧
      Instr.finalize.wellFormed = true) := by decide

/-- The table gives 10 bits a row; in whole bytes that is 16. -/
theorem test_witness_PresentedTableWordRuns :
    decodeTableWord 16 0x000 = some .nop ∧ decodeTableWord 16 0x100 = some .init ∧
    decodeTableWord 16 0x2FF = some (.absorb 0xFF) ∧ decodeTableWord 10 0x300 = some .finalize := by decide

theorem test_witness_StepTakesOneEvent :
    State.reset.input = [] ∧ (offered 0x300 State.reset).input = .beat 0x300 :: [] := by decide

/-- The phases, and a beat of each kind. -/
theorem test_witness_PhaseTable :
    phase (holding 63) = .active ∧ phase done = .done ∧ phase haltedUse = .halt ∧ phase haltedIllegal = .halt ∧
    ({ haltedUse with input := [.reset] } : State).input = .reset :: [] ∧
    (offered 0x101 done).input = .beat 0x101 :: [] ∧ decode 0x101 = .illegal ∧ decode 0x000 = .command .nop ∧
    decode 0x100 = .command .init ∧ decode 0x200 = .command (.absorb 0x00) ∧ decode 0x300 = .command .finalize ∧
    phase (offered 0x101 done) ≠ .halt := by decide

/-- The invariant in each phase, before a step that changes something. -/
theorem test_witness_StepKeepsInv :
    ((offered 0x261 (holding 62)).Inv ∧
      step (offered 0x261 (holding 62)) = .next (absorbByte 0x61 (consumed [] (holding 62)))) ∧
    ((offered 0x261 done).Inv ∧ step (offered 0x261 done) = .next (raise .useAfterFinalize (consumed [] done))) ∧
    ({ haltedUse with input := [.reset] } : State).Inv :=
  ⟨⟨by decide, rfl⟩, ⟨by decide, rfl⟩, by decide⟩

/-- A message of one byte short of a block. -/
theorem holding_63_tracks : (offered 0x261 (holding 63)).Tracks (List.replicate 63 0x61) := by decide +kernel

/-- An engine that holds the hash of the padded empty message. -/
def hashedEmpty : State := { done with state := process tableH (paddedMessage []) }

/-- While data is accepted, with a block about to be completed, and with a result. -/
theorem test_witness_StepKeepsSessionInv :
    ((offered 0x261 (holding 63)).SessionInv ∧
      step (offered 0x261 (holding 63)) = .next (absorbByte 0x61 (consumed [] (holding 63)))) ∧
    ((offered 0x300 hashedEmpty).SessionInv ∧
      step (offered 0x300 hashedEmpty) = .next (raise .useAfterFinalize (consumed [] hashedEmpty))) :=
  ⟨⟨⟨by decide, fun _ => ⟨_, holding_63_tracks⟩, fun h => absurd h.1 (by decide)⟩, rfl⟩,
   ⟨⟨⟨rfl, by decide, by decide, rfl⟩, fun h => absurd h.2 (by decide), fun _ => ⟨[], rfl⟩⟩, rfl⟩⟩

/-- A fresh engine; messages at both ends of a block. -/
theorem test_witness_CommandsTrackMessage :
    (State.reset.IsFresh ∧ State.reset.fault = 0) ∧
    ((holding 1).blockBuffer.wf = true ∧ (holding 1).Tracks [0x61]) ∧
    ((offered 0x261 (holding 63)).blockBuffer.wf = true ∧
      (offered 0x261 (holding 63)).Tracks (List.replicate 63 0x61)) :=
  ⟨by decide, by decide +kernel, by decide, holding_63_tracks⟩

/-- From a finalized engine, with the empty message and with "a", and an event left over. -/
theorem test_witness_SessionHashesMessage :
    (({ done with input := [.beat 0x100, .beat 0x300] } : State).fault = 0 ∧
      ({ done with input := [.beat 0x100, .beat 0x300] } : State).blockBuffer.wf = true ∧
      ([] : List Byte).length < Config.maxLen ∧
      ({ done with input := [.beat 0x100, .beat 0x300] } : State).input = beatsOf (hashCommands []) ++ []) ∧
    (({ done with input := [.beat 0x100, .beat 0x261, .beat 0x300, .reset] } : State).input =
      beatsOf (hashCommands [0x61]) ++ [.reset]) := by decide

/-- Lengths at both sides of the two branches; a zero byte right after the marker and right before the length. -/
theorem test_witness_PaddedMessageIsWholeBlocks :
    (List.replicate 55 (0x61 : Byte)).length < Config.maxLen ∧ (List.replicate 55 (0x61 : Byte)).length % 64 ≤ 55 ∧
    (List.replicate 56 (0x61 : Byte)).length < Config.maxLen ∧ ¬ (List.replicate 56 (0x61 : Byte)).length % 64 ≤ 55 ∧
    (([] : List Byte).length + 1 ≤ 1 ∧ 1 + 8 < (paddedMessage []).length) ∧
    (([] : List Byte).length + 1 ≤ 55 ∧ 55 + 8 < (paddedMessage []).length) := by decide

/-- Each command in the phases its clauses speak of. -/
theorem test_witness_CommandFrames :
    exec .nop done = .next done ∧ exec .init (holding 5) = .next (fresh (holding 5)) ∧
    (exec (.absorb 0x61) (holding 62) = .next (absorbByte 0x61 (holding 62)) ∧ (holding 62).blockFill ≠ 63 ∧
      (holding 62).finalized = false) ∧
    (exec (.absorb 0x61) done = .next (raise .useAfterFinalize done) ∧ done.finalized = true) ∧
    (exec .finalize (holding 55) = .next (finalizeMessage (holding 55)) ∧ (holding 55).blockFill.toNat ≤ 55 ∧
      (0 : Fin 64).val < (holding 55).blockFill.toNat ∧ (54 : Fin 64).val < (holding 55).blockFill.toNat) ∧
    exec .finalize done = .next (raise .useAfterFinalize done) :=
  ⟨rfl, rfl, ⟨rfl, by decide, rfl⟩, ⟨rfl, rfl⟩,
   ⟨execFinalize_of_active ⟨rfl, rfl⟩, by decide, by decide, by decide⟩, rfl⟩

theorem test_witness_StateWrittenOnlyByCompression :
    ((holding 63).blockBuffer.wf = true ∧ (holding 63).Active ∧ Instr.absorb 0 ≠ .init) ∧
    (done.blockBuffer.wf = true ∧ done.fault = 0) ∧
    (¬ done.Active ∧ ¬ haltedUse.Active ∧ Instr.finalize ≠ .init) := by decide

/-- Engines that differ in a dead byte, and finalized engines that differ in buffer, length and fill. -/
theorem test_witness_HiddenStateUnobservable :
    (({ holding 1 with blockBuffer := [(0, 0x61), (9, 0x42)] } : State).blockBuffer.wf = true ∧
      (holding 1).blockBuffer.wf = true ∧
      ({ holding 1 with blockBuffer := [(0, 0x61), (9, 0x42)] } : State).AgreeUpToHidden (holding 1)) ∧
    (({ holding 7 with finalized := true } : State).blockBuffer.wf = true ∧ done.blockBuffer.wf = true ∧
      ({ holding 7 with finalized := true } : State).AgreeUpToHidden done) := by decide

/-- States that differ in the hash words and the bytes, commands that differ in the data byte. -/
theorem test_witness_DataNeverSteersControl :
    ({ holding 63 with state := Vector.replicate 8 7, blockBuffer := [] } : State).AgreeOnControl (holding 63) ∧
    (Instr.absorb 0x00).sameShape (.absorb 0xFF) = true ∧ Instr.finalize.sameShape .finalize = true := by decide

/-- Also for `PartitionInsensitive`: an empty buffer, and one that the data complete. -/
theorem test_witness_BurstEqualsWireForm :
    ((holding 0).Active ∧ (holding 0).blockBuffer.wf = true) ∧
    ((holding 63).Active ∧ (holding 63).blockBuffer.wf = true) := by decide

theorem test_witness_WireFormRuns :
    ({ holding 63 with input := [.beat 0x200, .beat 0x2FF, .reset] } : State).Active ∧
    ({ holding 63 with input := [.beat 0x200, .beat 0x2FF, .reset] } : State).input =
      beatsOf (updateCommands [0x00, 0xFF]) ++ [.reset] ∧
    (holding 3).input = beatsOf (updateCommands []) ++ [] := by decide

theorem test_witness_UpdateEntryAndEmpty :
    haltedUse.fault ≠ 0 ∧ (done.fault = 0 ∧ done.finalized = true) ∧ (holding 63).Active := by decide

/-- Also for `OpcodeMapSelectsOneRow`. -/
theorem test_witness_DecodeEncodeAgree :
    (Instr.absorb 0x00).wellFormed = true ∧ (Instr.absorb 0xFF).wellFormed = true ∧
    decode 0x200 = .command (.absorb 0x00) ∧ decode 0x2FF = .command (.absorb 0xFF) ∧
    decode 0x000 = .command .nop ∧ decode 0x300 = .command .finalize ∧ decode 0x001 = .illegal ∧
    decode 0x3FF = .illegal := by decide

/-- One state for each of the five values. -/
theorem test_witness_StatusTakesFiveValues :
    (State.Inv (holding 63) ∧ status (holding 63) = 0x00) ∧ (State.Inv done ∧ status done = 0x11) ∧
    (State.Inv haltedUse ∧ status haltedUse = 0x07) ∧ (State.Inv haltedIllegal ∧ status haltedIllegal = 0x0A) ∧
    (State.Inv haltedDone ∧ status haltedDone = 0x0B) := by decide

theorem test_witness_DigestIsBigEndian : digestValid done = true := by decide

/-- The length field, the last byte, the whole buffer and an empty range at its end. -/
theorem test_witness_MemReadAfterMemWrite :
    (cellsOfA 64).wf = true ∧ 56 + 8 ≤ 64 ∧ 63 + 1 ≤ 64 ∧ 0 + 64 ≤ 64 ∧ 64 + 0 ≤ 64 := by decide

/-- The ends of the ranges of rotation amounts and bit numbers; also for `ShiftAndBitwise` and `ChooseAndMajority`. -/
theorem test_witness_RotateRightBits :
    (1 ≤ 1 ∧ 1 ≤ 31 ∧ 0 < 32) ∧ (1 ≤ 31 ∧ 31 ≤ 31 ∧ 31 < 32) := by decide

/-- The bits where the shifted terms of `s0` and `s1` run out. -/
theorem test_witness_SigmaBits : (28 < 32 ∧ 28 + 3 < 32) ∧ (29 < 32 ∧ ¬ 29 + 3 < 32) ∧ (21 + 10 < 32 ∧ ¬ 22 + 10 < 32) := by
  decide

theorem test_witness_ScheduleLoadsBigEndian : 0 < 16 ∧ 15 < 16 := by decide

theorem test_witness_ScheduleRecurrence : (16 ≤ 16 ∧ 16 < 64) ∧ (16 ≤ 63 ∧ 63 < 64) := by decide

/-- The working variables of a compression of `blockA` from `H`, round by round. -/
theorem test_witness_CompressIsSixtyFourRounds :
    ∃ v : Nat → Work, v 0 = ⟨tableH[0], tableH[1], tableH[2], tableH[3], tableH[4], tableH[5], tableH[6], tableH[7]⟩ ∧
      ∀ (i : Nat) (h : i < 64), v (i + 1) = roundAt (schedule blockA) ⟨i, h⟩ (v i) := by
  refine ⟨fun n => if h : n ≤ 64 then rounds (schedule blockA) n h (roundInit tableH) else roundInit tableH, rfl, ?_⟩
  intro i h
  simp only [dif_pos (show i + 1 ≤ 64 by omega), dif_pos (show i ≤ 64 by omega), rounds]

/-- One block, no block, two blocks. -/
theorem test_witness_ProcessCarriesState :
    (List.replicate 64 (0x61 : Byte)).length = 64 ∧ ([] : List Byte).length % 64 = 0 ∧
    (List.replicate 128 (0x61 : Byte)).length % 64 = 0 := by decide

end Sys2Proof.Tests
end

section
/-! PROOFS. The family of 00_scope.md. Every step and every command completes (R7): an entry test that the beat fails
answers a next state itself, and one that it passes goes on with a meaning that answers one. MemRead after MemWrite
(R11): MemRead takes back the big-endian bytes that MemWrite put down. -/

namespace Sys2Proof.Machine

/-! ### Completion -/

/-- A discarded beat is a completed one, so the halt test adds no way to stop (42_commands.md R140 line 1). -/
theorem unlessHalted_completes {k : State → StepOutcome} (hk : ∀ s, ∃ t, k s = .next t) (s : State) :
    ∃ t, unlessHalted s k = .next t := by
  by_cases h : s.fault = 0#2
  · exact unlessHalted_of_running h k ▸ hk s
  · exact ⟨s, unlessHalted_of_halted h k⟩

/-- Nor does the `finalized` test: UseAfterFinalize is itself a next state (assumption 1). -/
theorem unlessFinalized_completes {k : State → StepOutcome} (hk : ∀ s, ∃ t, k s = .next t) (s : State) :
    ∃ t, unlessFinalized s k = .next t := by
  cases h : s.finalized with
  | false => exact unlessFinalized_of_accepting h k ▸ hk s
  | true => exact ⟨_, unlessFinalized_of_finalized h k⟩

theorem rejectBeat_completes (s : State) : ∃ t, rejectBeat s = .next t :=
  unlessHalted_completes (fun _ => ⟨_, rfl⟩) s

theorem exec_completes (i : Instr) (s : State) : ∃ t, exec i s = .next t := by
  cases i with
  | nop => exact unlessHalted_completes (fun _ => ⟨_, rfl⟩) s
  | init => exact unlessHalted_completes (fun _ => ⟨_, rfl⟩) s
  | absorb b => exact unlessHalted_completes (unlessFinalized_completes fun _ => ⟨_, rfl⟩) s
  | finalize => exact unlessHalted_completes (unlessFinalized_completes fun _ => ⟨_, rfl⟩) s

theorem step_completes (s : State) : ∃ t, step s = .next t := by
  cases hin : s.input with
  | nil => exact ⟨s, step_idle hin⟩
  | cons e rest =>
    cases e with
    | reset => exact ⟨_, step_reset hin⟩
    | beat w =>
      cases hd : decode w with
      | illegal => exact step_illegal hin hd ▸ rejectBeat_completes _
      | command i => exact step_command hin hd ▸ exec_completes i _

/-- Settles O20: each event leads to the idle state, a reset, a reserved beat or a command, and all of them complete. -/
theorem everyStepCompletes : Obligations.EveryStepCompletes :=
  ⟨step_completes, exec_completes⟩

/-! ### MemRead after MemWrite -/

/-- The base-256 digits of `x`, most significant first, folded as MemRead folds its bytes, give `x` again up to what
`n` digits hold. -/
theorem foldl_bigEndian_digits {n : Nat} (x : Nat) {d : Fin n → Nat}
    (hd : ∀ k : Fin n, d k = x / 2 ^ (8 * (n - 1 - k.val)) % 2 ^ 8) :
    (List.finRange n).foldl (fun acc k => acc * 256 + d k) 0 = x % 2 ^ (8 * n) := by
  induction n generalizing x with
  | zero => simp [Nat.mod_one]
  | succ n ih =>
    have hinit : (List.finRange n).foldl (fun acc k => acc * 256 + d k.castSucc) 0 = x / 2 ^ 8 % 2 ^ (8 * n) := by
      refine ih (x / 2 ^ 8) fun k => ?_
      have hexp : 8 * (n + 1 - 1 - k.val) = 8 + 8 * (n - 1 - k.val) := by omega
      rw [hd, Fin.val_castSucc, hexp, pow_add, Nat.div_div_eq_div_mul]
    have hlast : d (Fin.last n) = x % 2 ^ 8 := by simp [hd]
    have hpow : 2 ^ (8 * (n + 1)) = 2 ^ 8 * 2 ^ (8 * n) := by rw [Nat.mul_succ, pow_add, Nat.mul_comm]
    simp only [List.finRange_succ_last, List.foldl_append, List.foldl_map, List.foldl_cons, List.foldl_nil]
    rw [hinit, hlast, hpow, Nat.mod_mul]
    omega

/-- A buffer that holds the bytes of a value in big-endian order reads as that value (R11). -/
theorem memRead_of_bigEndian_bytes {m : Memory} {addr n : Nat} {v : BitVec (8 * n)} (h : addr + n ≤ 64)
    (hbytes : ∀ k : Fin n, bufRead m ⟨addr + k.val, by omega⟩ = v.extractLsb' (8 * (n - 1 - k.val)) 8) :
    memRead m addr n h = v := by
  have hdigits := foldl_bigEndian_digits v.toNat
    (d := fun k : Fin n => (bufRead m ⟨addr + k.val, by omega⟩).toNat) fun k => by
      rw [hbytes k, BitVec.extractLsb'_toNat, Nat.shiftRight_eq_div_pow]
  rw [memRead, hdigits]
  exact BitVec.eq_of_toNat_eq (by simp)

theorem memRead_memWrite {m : Memory} (hm : m.wf = true) (addr n : Nat) (v : BitVec (8 * n)) (h : addr + n ≤ 64) :
    memRead (memWrite m addr n v h) addr n h = v :=
  memRead_of_bigEndian_bytes h fun k => by
    rw [bufRead_memWrite hm, if_pos ⟨Nat.le_add_right .., Nat.add_lt_add_left k.isLt _⟩, Nat.add_sub_cancel_left]

/-- Settles O47: inside the range MemRead takes back what MemWrite put down, outside it no byte is written. -/
theorem memReadAfterMemWrite : Obligations.MemReadAfterMemWrite := by
  intro m addr n v h hm
  exact ⟨memRead_memWrite hm addr n v h, wf_memWrite hm addr n v h,
    fun a ha => bufRead_memWrite_outside m addr n v h a (by omega)⟩

end Sys2Proof.Machine
end

section
/-! PROOFS. The family of 10_state.md, first part: which bytes ABSORB and FINALIZE compress (42_commands.md
R143, R147). ABSORB processes the live bytes and its own byte; FINALIZE processes the live bytes and the padding, byte
by byte what its sub-steps have put into the buffer, in one block or two. -/

namespace Sys2Proof.Machine

/-! ### The blocks of a command (42_commands.md R143, R147) -/

theorem processBlocks_singleton (x : HashWords) (B : Block) : processBlocks x [B] = compress x B := rfl

theorem processBlocks_pair (x : HashWords) (B C : Block) :
    processBlocks x [B, C] = compress (compress x B) C := rfl

theorem process_append (x : HashWords) {bytes : List Byte} (more : List Byte) (h : bytes.length % 64 = 0) :
    process x (bytes ++ more) = process (process x bytes) more := by
  rw [process, blocksOf_append more h, processBlocks_append]; rfl

/-- PROCESS of a message reads its whole blocks only. -/
theorem process_take_whole_blocks (x : HashWords) (bytes : List Byte) :
    process x (bytes.take (bytes.length - bytes.length % 64)) = process x bytes := by
  have hlen : bytes.length - bytes.length % 64 = 64 * (bytes.length / 64) := by omega
  rw [hlen, process, blocksOf_take]; rfl

theorem blocksOf_two {x : List Byte} (h : x.length = 128) :
    blocksOf x = [blockOfBytes x, blockOfBytes (x.drop 64)] := by
  simp [blocksOf, h, List.range_succ]

/-- The block of ABSORB is cut off the live bytes and the new one (R143). -/
theorem commandBlocks_absorb (b : Byte) (s : State) : commandBlocks (.absorb b) s = blocksOf (liveBytes s ++ [b]) := by
  have hlt := s.blockFill.isLt
  have hlen : (liveBytes s ++ [b]).length = s.blockFill.toNat + 1 := by simp
  by_cases h : s.blockFill.toNat = 63
  · rw [blocksOf_singleton (by omega), commandBlocks, if_pos h]
  · rw [blocksOf_short (by omega), commandBlocks, if_neg h]

theorem absorbByte_state_eq_processBlocks {s : State} (hm : s.blockBuffer.wf = true) (b : Byte) :
    (absorbByte b s).state = processBlocks s.state (commandBlocks (.absorb b) s) := by
  rw [absorbByte_state, commandBlocks]
  split
  · rw [processBlocks_singleton, bufBlock_absorb hm b ‹_›]
  · rfl

theorem absorbByte_state_eq_process {s : State} (hm : s.blockBuffer.wf = true) (b : Byte) :
    (absorbByte b s).state = process s.state (liveBytes s ++ [b]) := by
  rw [absorbByte_state_eq_processBlocks hm, commandBlocks_absorb]; rfl

/-! ### The padded tail, byte by byte (42_commands.md R147, R148) -/

/-- The bytes FINALIZE compresses: the live bytes and the padding after them. -/
def paddedTail (s : State) : List Byte := liveBytes s ++ padding s.blockFill.toNat (lengthField s)

theorem getD_be64Bytes (n : BitVec 64) {k : Nat} (h : k < 8) :
    (be64Bytes n).getD k 0 = n.extractLsb' (56 - 8 * k) 8 := by
  interval_cases k <;> rfl

@[simp] theorem length_be64Bytes (n : BitVec 64) : (be64Bytes n).length = 8 := rfl

theorem length_padding (n : Nat) (len : BitVec 64) : (padding n len).length = (119 - n % 64) % 64 + 9 := by
  simp [padding]

theorem length_paddedTail (s : State) : (paddedTail s).length = if s.blockFill.toNat ≤ 55 then 64 else 128 := by
  have hlt := s.blockFill.isLt
  rw [paddedTail, List.length_append, length_liveBytes, length_padding]
  split <;> omega

theorem getD_padding (n : Nat) (len : BitVec 64) (k : Nat) :
    (padding n len).getD k 0 =
      if k = 0 then 0x80 else if k ≤ (119 - n % 64) % 64 then 0
      else (be64Bytes len).getD (k - ((119 - n % 64) % 64 + 1)) 0 := by
  cases k with
  | zero => rfl
  | succ k =>
    rw [padding, List.getD_cons_succ, if_neg k.succ_ne_zero]
    split
    · rw [List.getD_append _ _ _ _ (by simpa)]
      exact List.getD_replicate _ (by omega)
    · rw [List.getD_append_right _ _ _ _ (by simp; omega), List.length_replicate]
      congr 1; omega

/-- The padded tail read from its end, where the length field stands: live bytes, marker, zeros, length. -/
theorem getD_paddedTail (s : State) {k : Nat} (h : k < (paddedTail s).length) :
    (paddedTail s).getD k 0 =
      if k < s.blockFill.toNat then cellRead s.blockBuffer k
      else if k = s.blockFill.toNat then 0x80
      else if k + 8 < (paddedTail s).length then 0
      else (lengthField s).extractLsb' (8 * ((paddedTail s).length - 1 - k)) 8 := by
  have hlen : (paddedTail s).length = s.blockFill.toNat + ((119 - s.blockFill.toNat % 64) % 64 + 9) := by
    rw [paddedTail, List.length_append, length_liveBytes, length_padding]
  by_cases hlive : k < s.blockFill.toNat
  · rw [if_pos hlive, paddedTail, List.getD_append _ _ _ _ (by simpa)]
    exact liveBytes_getD s ⟨k, lt_trans hlive s.blockFill.isLt⟩ hlive
  · rw [if_neg hlive, paddedTail, List.getD_append_right _ _ _ _ (by simpa using hlive), getD_padding,
      ← paddedTail, length_liveBytes]
    by_cases hmark : k = s.blockFill.toNat
    · rw [if_pos (by omega), if_pos hmark]
    · rw [if_neg (by omega), if_neg hmark]
      by_cases hzero : k + 8 < (paddedTail s).length
      · rw [if_pos (by omega), if_pos hzero]
      · rw [if_neg (by omega), if_neg hzero, getD_be64Bytes _ (by omega)]
        congr 1; omega

/-! ### FINALIZE compresses the padded tail (42_commands.md R146, R147) -/

theorem lengthField_congr {s t : State} (h : s.totalLength = t.totalLength) : lengthField s = lengthField t := by
  rw [lengthField, lengthField, h]

theorem bufBlock_eq_blockOfBytes {m : Memory} {x : List Byte} (h : ∀ a : Fin 64, bufRead m a = x.getD a.val 0) :
    bufBlock m = blockOfBytes x := by
  ext i hi
  rw [getElem_bufBlock, getElem_blockOfBytes, h]

/-- The one block of the short path. Here and below, both sides are one cut of the offsets into live bytes, marker,
zeros and length field, written in two orders. -/
theorem bufBlock_onePad {s : State} (hm : s.blockBuffer.wf = true) (h : s.blockFill.toNat ≤ 55) :
    bufBlock (padLen (padZero (padMark s))).blockBuffer = blockOfBytes (paddedTail s) := by
  have hlen : (paddedTail s).length = 64 := by rw [length_paddedTail, if_pos h]
  have hfield : lengthField (padZero (padMark s)) = lengthField s := lengthField_congr (by simp)
  refine bufBlock_eq_blockOfBytes fun a => ?_
  rw [getD_paddedTail s (by omega), hlen, bufRead_padLen (wf_padZero (wf_padMark hm)), hfield,
    bufRead_padZero (wf_padMark hm), padMark_blockFill, if_pos h, bufRead_padMark hm, bufRead]
  grind

/-- The first block of the long path ends in zeros. -/
theorem bufBlock_firstPad {s : State} (hm : s.blockBuffer.wf = true) (h : ¬ s.blockFill.toNat ≤ 55) :
    bufBlock (padZero (padMark s)).blockBuffer = blockOfBytes (paddedTail s) := by
  have hlen : (paddedTail s).length = 128 := by rw [length_paddedTail, if_neg h]
  refine bufBlock_eq_blockOfBytes fun a => ?_
  rw [getD_paddedTail s (by omega), hlen, bufRead_padZero (wf_padMark hm), padMark_blockFill, if_neg h,
    bufRead_padMark hm, bufRead]
  grind

/-- The second block of the long path is zeros and the length field. -/
theorem bufBlock_secondPad {s : State} (hm : s.blockBuffer.wf = true) (h : ¬ s.blockFill.toNat ≤ 55) :
    bufBlock (padLen (padZero2 (padFlush1 (padZero (padMark s))))).blockBuffer =
      blockOfBytes ((paddedTail s).drop 64) := by
  have hlt := s.blockFill.isLt
  have hlen : (paddedTail s).length = 128 := by rw [length_paddedTail, if_neg h]
  have hm1 : (padFlush1 (padZero (padMark s))).blockBuffer.wf = true := wf_padZero (wf_padMark hm)
  have hfield : lengthField (padZero2 (padFlush1 (padZero (padMark s)))) = lengthField s := lengthField_congr (by simp)
  refine bufBlock_eq_blockOfBytes fun a => ?_
  have hdrop : ((paddedTail s).drop 64).getD a.val 0 = (paddedTail s).getD (64 + a.val) 0 := by
    simp [List.getD_eq_getElem?_getD]
  rw [hdrop, getD_paddedTail s (by omega), hlen, bufRead_padLen (wf_padZero2 hm1), hfield, bufRead_padZero2 hm1]
  grind

/-- One block of 64 bytes or two: each is in the buffer when the path compresses it. -/
theorem finalizeMessage_state {s : State} (hm : s.blockBuffer.wf = true) :
    (finalizeMessage s).state = process s.state (paddedTail s) := by
  by_cases h : s.blockFill.toNat ≤ 55
  · have hlen : (paddedTail s).length = 64 := by rw [length_paddedTail, if_pos h]
    rw [finalizeMessage_short h, process, blocksOf_singleton hlen, processBlocks_singleton]
    simp [bufBlock_onePad hm h]
  · have hlen : (paddedTail s).length = 128 := by rw [length_paddedTail, if_neg h]
    rw [finalizeMessage_long h, process, blocksOf_two hlen, processBlocks_pair]
    simp [bufBlock_firstPad hm h, bufBlock_secondPad hm h]

theorem finalizeMessage_state_eq_processBlocks {s : State} (hm : s.blockBuffer.wf = true) :
    (finalizeMessage s).state = processBlocks s.state (commandBlocks .finalize s) :=
  finalizeMessage_state hm

end Sys2Proof.Machine
end

section
/-! PROOFS. The family of 10_state.md, second part: what every step keeps. An invariant is shown for the operations a
step is made of and then holds of the step. The message of a session is tracked through `process`: the hash state is
PROCESS of the message from `H`, and going on from it with the live bytes is going on with the message (R31). -/

namespace Sys2Proof.Machine

/-! ### What every step keeps -/

/-- The operations a step is made of, each on the states it runs on, keep `P`. -/
structure KeptByOperations (P : State → Prop) : Prop where
  taken : ∀ {s : State} (rest : List Event), P s → P (consumed rest s)
  reset : ∀ {s : State}, P s → P (hardwareReset s)
  illegal : ∀ {s : State}, P s → P (raise .illegalBeat s)
  misuse : ∀ {s : State}, P s → s.finalized = true → P (raise .useAfterFinalize s)
  init : ∀ {s : State}, P s → s.fault = 0#2 → P (fresh s)
  absorb : ∀ {s : State} (b : Byte), P s → s.Active → P (absorbByte b s)
  finalize : ∀ {s : State}, P s → s.Active → P (finalizeMessage s)

theorem KeptByOperations.exec {P : State → Prop} (k : KeptByOperations P) {i : Instr} {s t : State} (hs : P s)
    (h : exec i s = .next t) : P t := by
  obtain ⟨-, rfl⟩ | ⟨-, rfl⟩ | ⟨-, hrun, rfl⟩ | ⟨b, -, hact, rfl⟩ | ⟨-, hact, rfl⟩ | ⟨-, -, hfin, rfl⟩ := exec_cases h
  · exact hs
  · exact hs
  · exact k.init hs hrun
  · exact k.absorb b hs hact
  · exact k.finalize hs hact
  · exact k.misuse hs hfin

theorem KeptByOperations.step {P : State → Prop} (k : KeptByOperations P) {s t : State} (hs : P s)
    (h : step s = .next t) : P t := by
  obtain ⟨-, rfl⟩ | ⟨e, rest, -, ⟨-, rfl⟩ | ⟨w, -, -, hreject⟩ | ⟨w, i, -, -, hexec⟩⟩ := step_cases h
  · exact hs
  · exact k.reset (k.taken rest hs)
  · obtain ⟨-, rfl⟩ | ⟨-, rfl⟩ := rejectBeat_cases hreject
    · exact k.taken rest hs
    · exact k.illegal (k.taken rest hs)
  · exact k.exec (k.taken rest hs) hexec

/-! ### The invariant (10_state.md R24, R26, R33) -/

@[simp] theorem code_useAfterFinalize : FaultCause.useAfterFinalize.code = 1#2 := rfl
@[simp] theorem code_illegalBeat : FaultCause.illegalBeat.code = 2#2 := rfl

/-- `block_fill` moves on by one modulo 64 (R143). -/
theorem toNat_absorbByte_blockFill (b : Byte) (s : State) :
    (absorbByte b s).blockFill.toNat = (s.blockFill.toNat + 1) % 64 := by
  rw [absorbByte_blockFill]
  split
  · rw [‹s.blockFill.toNat = 63›]; rfl
  · rw [BitVec.toNat_ofNat]

/-- 64 divides 2^64, so a wrapped counter moves on by one modulo 64 like any other (assumption 18). -/
theorem toNat_add_one_mod_64 (n : BitVec 64) : (n + 1).toNat % 64 = (n.toNat % 64 + 1) % 64 := by
  bv_omega

theorem inv_of_running {s : State} (hwf : s.blockBuffer.wf = true) (hrun : s.fault = 0#2)
    (hfill : s.blockFill.toNat = s.totalLength.toNat % 64) : s.Inv :=
  ⟨hwf, by simp [hrun], by simp [hrun], hfill⟩

theorem inv_keptByOperations : KeptByOperations State.Inv where
  taken _ hs := hs
  reset _ := inv_of_running rfl rfl rfl
  illegal := fun ⟨hwf, _, _, hfill⟩ => ⟨hwf, by simp, by simp, hfill⟩
  misuse := fun ⟨hwf, _, _, hfill⟩ hfin => ⟨hwf, by simp, fun _ => hfin, hfill⟩
  init _ hrun := inv_of_running rfl hrun rfl
  absorb b := fun ⟨hwf, _, _, hfill⟩ hact =>
    inv_of_running (wf_absorbByte hwf b) ((absorbByte_fault b _).trans hact.1) (by
      rw [toNat_absorbByte_blockFill, absorbByte_totalLength, toNat_add_one_mod_64, hfill])
  finalize := fun ⟨hwf, _, _, hfill⟩ hact =>
    inv_of_running (wf_finalizeMessage hwf) ((finalizeMessage_fault _).trans hact.1) (by simpa using hfill)

/-- Settles O24: every operation keeps the buffer's form, the bounds on `fault` and `block_fill = total_length mod 64`. -/
theorem stepKeepsInv : Obligations.StepKeepsInv := fun _ _ hs h => inv_keptByOperations.step hs h

/-- Settles O23: the base case. -/
theorem invHoldsAtReset : Obligations.InvHoldsAtReset := inv_of_running rfl rfl rfl

/-! ### The message of a session (10_state.md R31) -/

/-- A length keeps its remainder modulo 64 when it is taken modulo 2^64 (assumption 7). -/
theorem toNat_ofNat_mod_64 (n : Nat) : (BitVec.ofNat 64 n).toNat % 64 = n % 64 := by
  rw [BitVec.toNat_ofNat, Nat.mod_mod_of_dvd _ (by decide)]

/-- I1 to I5 with `block_fill` written through the message's length: `state` is PROCESS of the whole message, which reads
its whole blocks only. -/
theorem tracks_iff {s : State} {msg : List Byte} :
    s.Tracks msg ↔ s.Active ∧ s.totalLength = BitVec.ofNat 64 msg.length ∧ s.blockFill.toNat = msg.length % 64 ∧
      liveBytes s = msg.drop (msg.length - msg.length % 64) ∧ s.state = process tableH msg := by
  refine and_congr_right fun _ => and_congr_right fun hlen => ?_
  rw [hlen, toNat_ofNat_mod_64]
  refine and_congr_right fun hfill => ?_
  rw [hfill, process_take_whole_blocks]

theorem tracks_nil {s : State} (hfresh : s.IsFresh) (hrun : s.fault = 0#2) : s.Tracks [] := by
  obtain ⟨hstate, hlen, hfill, -, hfin⟩ := hfresh
  exact tracks_iff.mpr ⟨⟨hrun, hfin⟩, hlen, by simp [hfill], liveBytes_of_fill_zero hfill, hstate⟩

theorem isFresh_fresh (s : State) : (fresh s).IsFresh := ⟨rfl, rfl, rfl, fun _ => rfl, rfl⟩

theorem isFresh_hardwareReset (s : State) : (hardwareReset s).IsFresh := isFresh_fresh s

/-- PROCESS goes on from `state` with the live bytes where it would go on with the message from `H`. -/
theorem process_liveBytes_append {s : State} {msg : List Byte} (h : s.Tracks msg) (more : List Byte) :
    process s.state (liveBytes s ++ more) = process tableH (msg ++ more) := by
  obtain ⟨-, -, -, hlive, hstate⟩ := tracks_iff.mp h
  have hwhole : (msg.take (msg.length - msg.length % 64)).length % 64 = 0 := by
    rw [List.length_take]; omega
  rw [hlive, hstate, ← process_take_whole_blocks tableH msg, ← process_append _ _ hwhole, ← List.append_assoc,
    List.take_append_drop]

theorem liveBytes_absorbByte_eq_ite {s : State} (hm : s.blockBuffer.wf = true) (b : Byte) :
    liveBytes (absorbByte b s) = if s.blockFill.toNat = 63 then [] else liveBytes s ++ [b] := by
  split
  · exact liveBytes_of_fill_zero ((absorbByte_blockFill b s).trans (if_pos ‹_›))
  · exact liveBytes_absorbByte hm b ‹_›

theorem tracks_absorbByte {s : State} {msg : List Byte} (hm : s.blockBuffer.wf = true) (h : s.Tracks msg) (b : Byte) :
    (absorbByte b s).Tracks (msg ++ [b]) := by
  obtain ⟨hact, hlen, hfill, hlive, -⟩ := tracks_iff.mp h
  refine tracks_iff.mpr ⟨⟨by simpa using hact.1, by simpa using hact.2⟩, ?_, ?_, ?_, ?_⟩
  · rw [absorbByte_totalLength, hlen, List.length_append, List.length_singleton, BitVec.ofNat_add]
    rfl
  · rw [toNat_absorbByte_blockFill, hfill, List.length_append, List.length_singleton, Nat.mod_add_mod]
  · rw [liveBytes_absorbByte_eq_ite hm, List.length_append, List.length_singleton]
    split
    · rw [List.drop_eq_nil_of_le]
      simp; omega
    · have hcut : msg.length + 1 - (msg.length + 1) % 64 = msg.length - msg.length % 64 := by omega
      rw [hcut, List.drop_append_of_le_length (by omega), hlive]
  · rw [absorbByte_state_eq_process hm, process_liveBytes_append h]

theorem finalizeMessage_state_of_tracks {s : State} {msg : List Byte} (hm : s.blockBuffer.wf = true)
    (h : s.Tracks msg) : (finalizeMessage s).state = process tableH (paddedMessage msg) := by
  obtain ⟨-, hlen, hfill, -, -⟩ := tracks_iff.mp h
  have hfield : lengthField s = BitVec.ofNat 64 (8 * msg.length) := by
    rw [lengthField, hlen, Nat.mul_comm, BitVec.ofNat_mul]
    rfl
  have hpad : padding s.blockFill.toNat (lengthField s) = padding msg.length (BitVec.ofNat 64 (8 * msg.length)) := by
    rw [padding, padding, hfield, hfill, Nat.mod_mod]
  rw [finalizeMessage_state hm, paddedTail, process_liveBytes_append h, hpad, paddedMessage]

/-- Settles O27: NOP keeps the state, INIT makes it fresh, ABSORB appends its byte to the message. -/
theorem commandsTrackMessage : Obligations.CommandsTrackMessage := by
  refine ⟨fun s => tracks_nil, fun s msg hm h => ⟨⟨s, execNop_eq s, h⟩, ?_, fun b => ?_⟩⟩
  · have ⟨⟨hrun, _⟩, _⟩ := h
    exact ⟨fresh s, execInit_of_running hrun, tracks_nil (isFresh_fresh s) hrun⟩
  · have ⟨hact, _⟩ := h
    exact ⟨absorbByte b s, execAbsorb_of_active b hact, tracks_absorbByte hm h b⟩

/-! ### The session invariant (10_state.md R31, 42_commands.md R149) -/

theorem sessionInv_of_tracks {s : State} {msg : List Byte} (hinv : s.Inv) (h : s.Tracks msg) : s.SessionInv :=
  have ⟨⟨_, hfin⟩, _⟩ := h
  ⟨hinv, fun _ => ⟨msg, h⟩, fun hres => absurd (hfin.symm.trans hres.1) Bool.false_ne_true⟩

theorem sessionInv_of_halted {s : State} (hinv : s.Inv) (h : s.fault ≠ 0#2) : s.SessionInv :=
  ⟨hinv, fun hact => absurd hact.1 h, fun hres => absurd hres.2 h⟩

theorem sessionInv_of_result {s : State} {msg : List Byte} (hinv : s.Inv) (hfin : s.finalized = true)
    (h : s.state = process tableH (paddedMessage msg)) : s.SessionInv :=
  ⟨hinv, fun hact => absurd (hact.2.symm.trans hfin) Bool.false_ne_true, fun _ => ⟨msg, h⟩⟩

theorem sessionInv_keptByOperations : KeptByOperations State.SessionInv where
  taken _ hs := hs
  reset := fun ⟨hinv, _⟩ =>
    sessionInv_of_tracks (inv_keptByOperations.reset hinv) (tracks_nil (isFresh_hardwareReset _) rfl)
  illegal := fun ⟨hinv, _⟩ => sessionInv_of_halted (inv_keptByOperations.illegal hinv) (by simp)
  misuse := fun ⟨hinv, _⟩ hfin => sessionInv_of_halted (inv_keptByOperations.misuse hinv hfin) (by simp)
  init := fun ⟨hinv, _⟩ hrun =>
    sessionInv_of_tracks (inv_keptByOperations.init hinv hrun) (tracks_nil (isFresh_fresh _) hrun)
  absorb b := fun ⟨hinv, htracks, _⟩ hact =>
    let ⟨_, h⟩ := htracks hact
    sessionInv_of_tracks (inv_keptByOperations.absorb b hinv hact) (tracks_absorbByte hinv.1 h b)
  finalize := fun ⟨hinv, htracks, _⟩ hact =>
    let ⟨_, h⟩ := htracks hact
    sessionInv_of_result (inv_keptByOperations.finalize hinv hact) (finalizeMessage_finalized _)
      (finalizeMessage_state_of_tracks hinv.1 h)

/-- Settles O26: a message tracked before ABSORB is tracked with its byte after it, and FINALIZE hashes it padded. -/
theorem stepKeepsSessionInv : Obligations.StepKeepsSessionInv := fun _ _ hs h => sessionInv_keptByOperations.step hs h

/-- Settles O25: the base case, with the empty message. -/
theorem sessionInvHoldsAtReset : Obligations.SessionInvHoldsAtReset :=
  sessionInv_of_tracks invHoldsAtReset (tracks_nil ⟨rfl, rfl, rfl, fun _ => rfl, rfl⟩ rfl)

/-! ### What writes `state` and `fault` (10_state.md R21, R26) -/

/-- Settles O31: each of the six things a command can do writes `state` as the clause for it says. -/
theorem stateWrittenOnlyByCompression : Obligations.StateWrittenOnlyByCompression := by
  intro i s hm
  obtain ⟨t, ht⟩ := exec_completes i s
  refine ⟨t, ht, ?_⟩
  obtain ⟨hhalt, rfl⟩ | ⟨rfl, rfl⟩ | ⟨rfl, hrun, rfl⟩ | ⟨b, rfl, hact, rfl⟩ | ⟨rfl, hact, rfl⟩ |
    ⟨hi, hrun, hfin, rfl⟩ := exec_cases ht
  · exact ⟨fun hact => absurd hact.1 hhalt, fun hrun => absurd hrun hhalt, fun _ _ => rfl⟩
  · exact ⟨fun _ _ => rfl, fun _ => nofun, fun _ _ => rfl⟩
  · exact ⟨fun _ hne => absurd rfl hne, fun _ _ => rfl, fun _ hne => absurd rfl hne⟩
  · exact ⟨fun _ _ => absorbByte_state_eq_processBlocks hm b, fun _ => nofun, fun hno => absurd hact hno⟩
  · exact ⟨fun _ _ => finalizeMessage_state_eq_processBlocks hm, fun _ => nofun, fun hno => absurd hact hno⟩
  · exact ⟨fun hact => absurd (hact.2.symm.trans hfin) Bool.false_ne_true, by rintro - rfl; simp at hi, fun _ _ => rfl⟩

theorem step_beat_of_halted {s : State} {w : Beat} {rest : List Event} (h : s.fault ≠ 0#2)
    (hin : s.input = .beat w :: rest) : step s = .next (consumed rest s) := by
  cases hd : decode w with
  | illegal => exact (step_illegal hin hd).trans (rejectBeat_of_halted h)
  | command i => exact (step_command hin hd).trans (exec_of_halted (s := consumed rest s) h i)

/-- Settles O17: a halted engine discards every beat, and an idle step keeps all of the state. -/
theorem faultStaysUntilReset : Obligations.FaultStaysUntilReset := by
  intro s t hfault h
  constructor
  · rintro ⟨rest, hin⟩
    obtain rfl : hardwareReset (consumed rest s) = t := by simpa [step_reset hin] using h
    rfl
  · intro hno
    cases hin : s.input with
    | nil =>
      obtain rfl : s = t := by simpa [step_idle hin] using h
      rfl
    | cons e rest =>
      cases e with
      | reset => exact absurd ⟨rest, hin⟩ hno
      | beat w =>
        obtain rfl : consumed rest s = t := by simpa [step_beat_of_halted hfault hin] using h
        rfl

end Sys2Proof.Machine
end

section
/-! PROOFS. The family of 10_state.md, third part: what the host sees (R33 to R35) and what it cannot see (R36). Two
states that differ in hidden state only run the same operations, so their outcomes again differ in hidden state only. -/

namespace Sys2Proof.Machine

/-! ### The outputs (10_state.md R33 to R35) -/

theorem digestValid_congr {s t : State} (hfin : s.finalized = t.finalized) (hfault : s.fault = t.fault) :
    digestValid s = digestValid t := by
  rw [digestValid, digestValid, hfin, hfault]

theorem status_congr {s t : State} (hfin : s.finalized = t.finalized) (hfault : s.fault = t.fault) :
    status s = status t := by
  rw [status, status, halted, halted, digestValid_congr hfin hfault, hfin, hfault]

/-- The state right after reset with `finalized` and `fault` set: one for each value the two outputs can take. -/
def flagged (finalized : Bool) (fault : BitVec 2) : State := { State.reset with finalized, fault }

theorem status_eq_status_flagged {s : State} {finalized : Bool} {fault : BitVec 2} (hfin : s.finalized = finalized)
    (hfault : s.fault = fault) : status s = status (flagged finalized fault) :=
  status_congr hfin hfault

theorem statusBits_flagged : ∀ (finalized : Bool) (fault : BitVec 2),
    (status (flagged finalized fault)).getLsbD 0 = finalized ∧
    (status (flagged finalized fault)).getLsbD 1 = decide (fault ≠ 0) ∧
    (status (flagged finalized fault)).extractLsb' 2 2 = fault ∧
    (status (flagged finalized fault)).getLsbD 4 = digestValid (flagged finalized fault) ∧
    (status (flagged finalized fault)).extractLsb' 5 3 = 0 := by decide

/-- Settles O44: the ports are functions of `finalized` and `fault`, and the bits hold for the eight values of the two. -/
theorem statusBits : Obligations.StatusBits := fun s =>
  ⟨rfl, statusBits_flagged s.finalized s.fault⟩

theorem fault_cases (c : BitVec 2) : c = 0#2 ∨ c = 1#2 ∨ c = 2#2 ∨ c = 3#2 := by
  revert c; decide

/-- Settles O45: the invariant shuts out code 3, and code 1 without `finalized`. -/
theorem statusTakesFiveValues : Obligations.StatusTakesFiveValues := by
  rintro s ⟨-, hthree, hone, -⟩
  obtain hc | hc | hc | hc := fault_cases s.fault
  · cases hfin : s.finalized with
    | false => exact .inl ⟨status_eq_status_flagged hfin hc, hc, hfin⟩
    | true => exact .inr (.inl ⟨status_eq_status_flagged hfin hc, hfin, hc⟩)
  · exact .inr (.inr (.inl ⟨status_eq_status_flagged (hone hc) hc, hc, hone hc⟩))
  · cases hfin : s.finalized with
    | false => exact .inr (.inr (.inr (.inl ⟨status_eq_status_flagged hfin hc, hc, rfl⟩)))
    | true => exact .inr (.inr (.inr (.inr ⟨status_eq_status_flagged hfin hc, hc, rfl⟩)))
  · exact absurd hc hthree

/-- Settles O1: the state after reset is one of its own fresh states. -/
theorem resetStateIsFresh : Obligations.ResetStateIsFresh :=
  ⟨isFresh_fresh State.reset, rfl, rfl, rfl, rfl, rfl⟩

/-- Word `j` of the port stands at bits `[255-32j : 224-32j]`. -/
theorem getLsbD_digestOfWords (x : HashWords) (j : Fin 8) {i : Nat} (hi : i < 32) :
    (digestOfWords x).getLsbD (224 - 32 * j.val + i) = x[j.val].getLsbD i := by
  simp only [digestOfWords, BitVec.getLsbD_append]
  fin_cases j <;> grind

theorem extractLsb'_digestOfWords (x : HashWords) (j : Fin 8) (k : Fin 4) :
    (digestOfWords x).extractLsb' (248 - 8 * (4 * j.val + k.val)) 8 = x[j.val].extractLsb' (24 - 8 * k.val) 8 := by
  ext i hi
  have hoffset : 248 - 8 * (4 * j.val + k.val) + i = 224 - 32 * j.val + (24 - 8 * k.val + i) := by omega
  rw [BitVec.getElem_extractLsb', BitVec.getElem_extractLsb', hoffset, getLsbD_digestOfWords x j (by omega)]

theorem getD_be32Bytes (w : Word) (k : Fin 4) : (be32Bytes w).getD k.val 0 = w.extractLsb' (24 - 8 * k.val) 8 := by
  fin_cases k <;> rfl

theorem length_flatMap_be32Bytes (l : List Word) : (l.flatMap be32Bytes).length = 4 * l.length := by
  simp [be32Bytes, Nat.mul_comm]

/-- Byte `4j + k` of a sequence of words is byte `k` of word `j`. -/
theorem getD_flatMap_be32Bytes (l : List Word) {j : Nat} (h : j < l.length) (k : Fin 4) :
    (l.flatMap be32Bytes).getD (4 * j + k.val) 0 = (be32Bytes l[j]).getD k.val 0 := by
  induction l generalizing j with
  | nil => simp at h
  | cons w l ih =>
    rw [List.flatMap_cons]
    cases j with
    | zero => rw [List.getD_append _ _ _ _ (by simp [be32Bytes])]; simp
    | succ j =>
      have hlen : (be32Bytes w).length = 4 := rfl
      have hindex : 4 * (j + 1) + k.val - 4 = 4 * j + k.val := by omega
      rw [List.getD_append_right _ _ _ _ (by omega), hlen, hindex, ih (by simpa using h)]
      rfl

/-- Settles O46: byte `4j + k` is byte `k` of word `j`, in the byte sequence and in the port. -/
theorem digestIsBigEndian : Obligations.DigestIsBigEndian := by
  refine ⟨fun x => ⟨?_, fun j k => ⟨?_, extractLsb'_digestOfWords x j k⟩⟩, fun s h => if_pos h⟩
  · rw [digestBytes, length_flatMap_be32Bytes, Vector.length_toList]
  · rw [digestBytes, getD_flatMap_be32Bytes _ (by simp), getD_be32Bytes]
    simp

/-! ### Hidden state (10_state.md R36) -/

theorem agree_consumed {s t : State} (h : s.AgreeUpToHidden t) (rest : List Event) :
    (consumed rest s).AgreeUpToHidden (consumed rest t) := by
  obtain ⟨hstate, hfin, hfault, ⟨-, hdraw⟩, hdata⟩ := h
  exact ⟨hstate, hfin, hfault, ⟨rfl, congrArg (· + 1) hdraw⟩, hdata⟩

theorem agree_raise {s t : State} (h : s.AgreeUpToHidden t) (f : FaultCause) :
    (raise f s).AgreeUpToHidden (raise f t) := by
  obtain ⟨hstate, hfin, -, hout, hdata⟩ := h
  exact ⟨hstate, hfin, rfl, hout, hdata⟩

theorem agree_fresh {s t : State} (h : s.AgreeUpToHidden t) : (fresh s).AgreeUpToHidden (fresh t) := by
  obtain ⟨-, -, hfault, hout, -⟩ := h
  exact ⟨rfl, rfl, hfault, hout, fun _ => ⟨rfl, rfl, rfl⟩⟩

theorem agree_hardwareReset {s t : State} (h : s.AgreeUpToHidden t) :
    (hardwareReset s).AgreeUpToHidden (hardwareReset t) := by
  obtain ⟨-, -, -, hout, -⟩ := h
  exact ⟨rfl, rfl, rfl, hout, fun _ => ⟨rfl, rfl, rfl⟩⟩

section Absorbing
variable {s t : State} (hs : s.blockBuffer.wf = true) (ht : t.blockBuffer.wf = true) (h : s.AgreeUpToHidden t)
  (hact : s.Active)
include hs ht h hact

theorem agree_absorbByte (b : Byte) : (absorbByte b s).AgreeUpToHidden (absorbByte b t) := by
  obtain ⟨hstate, hfin, hfault, ⟨hin, hdraw⟩, hdata⟩ := h
  obtain ⟨hlen, hfill, hlive⟩ := hdata hact.2
  refine ⟨?_, by simpa using hfin, by simpa using hfault,
    ⟨by simpa using hin, by simpa using hdraw⟩, fun _ => ⟨?_, ?_, ?_⟩⟩
  · rw [absorbByte_state_eq_process hs, absorbByte_state_eq_process ht, hstate, hlive]
  · rw [absorbByte_totalLength, absorbByte_totalLength, hlen]
  · rw [absorbByte_blockFill, absorbByte_blockFill, hfill]
  · rw [liveBytes_absorbByte_eq_ite hs, liveBytes_absorbByte_eq_ite ht, hfill, hlive]

theorem agree_finalizeMessage : (finalizeMessage s).AgreeUpToHidden (finalizeMessage t) := by
  obtain ⟨hstate, -, hfault, ⟨hin, hdraw⟩, hdata⟩ := h
  obtain ⟨hlen, hfill, hlive⟩ := hdata hact.2
  refine ⟨?_, by simp, by simpa using hfault, ⟨by simpa using hin, by simpa using hdraw⟩, by simp⟩
  rw [finalizeMessage_state hs, finalizeMessage_state ht, paddedTail, paddedTail, hstate, hlive, hfill,
    lengthField_congr hlen]

end Absorbing

/-- Both outcomes are next states that the host cannot tell apart. -/
def AgreeingOutcomes (o p : StepOutcome) : Prop := ∃ s t, o = .next s ∧ p = .next t ∧ s.AgreeUpToHidden t

theorem agreeingOutcomes_unlessHalted {s t : State} {k : State → StepOutcome} (h : s.AgreeUpToHidden t)
    (hk : s.fault = 0#2 → AgreeingOutcomes (k s) (k t)) :
    AgreeingOutcomes (unlessHalted s k) (unlessHalted t k) := by
  have ⟨_, _, hfault, _, _⟩ := h
  by_cases hrun : s.fault = 0#2
  · rw [unlessHalted_of_running hrun, unlessHalted_of_running (hfault ▸ hrun)]
    exact hk hrun
  · exact ⟨s, t, unlessHalted_of_halted hrun k, unlessHalted_of_halted (hfault ▸ hrun) k, h⟩

theorem agreeingOutcomes_unlessFinalized {s t : State} {k : State → StepOutcome} (h : s.AgreeUpToHidden t)
    (hk : s.finalized = false → AgreeingOutcomes (k s) (k t)) :
    AgreeingOutcomes (unlessFinalized s k) (unlessFinalized t k) := by
  have ⟨_, hfin, _, _, _⟩ := h
  cases hc : s.finalized with
  | false =>
    rw [unlessFinalized_of_accepting hc, unlessFinalized_of_accepting (hfin ▸ hc)]
    exact hk hc
  | true =>
    exact ⟨_, _, unlessFinalized_of_finalized hc k, unlessFinalized_of_finalized (hfin ▸ hc) k, agree_raise h _⟩

theorem agreeingOutcomes_rejectBeat {s t : State} (h : s.AgreeUpToHidden t) :
    AgreeingOutcomes (rejectBeat s) (rejectBeat t) :=
  agreeingOutcomes_unlessHalted h fun _ => ⟨_, _, rfl, rfl, agree_raise h _⟩

theorem agreeingOutcomes_exec {s t : State} (h : s.AgreeUpToHidden t) (hs : s.blockBuffer.wf = true)
    (ht : t.blockBuffer.wf = true) (i : Instr) : AgreeingOutcomes (exec i s) (exec i t) := by
  cases i with
  | nop =>
    exact agreeingOutcomes_unlessHalted h fun _ => ⟨s, t, rfl, rfl, h⟩
  | init =>
    simp only [exec, execInit]
    exact agreeingOutcomes_unlessHalted h fun _ => ⟨fresh s, fresh t, rfl, rfl, agree_fresh h⟩
  | absorb b =>
    simp only [exec, execAbsorb]
    exact agreeingOutcomes_unlessHalted h fun hrun => agreeingOutcomes_unlessFinalized h fun hfin =>
      ⟨absorbByte b s, absorbByte b t, rfl, rfl, agree_absorbByte hs ht h ⟨hrun, hfin⟩ b⟩
  | finalize =>
    simp only [exec, execFinalize]
    exact agreeingOutcomes_unlessHalted h fun hrun => agreeingOutcomes_unlessFinalized h fun hfin =>
      ⟨finalizeMessage s, finalizeMessage t, rfl, rfl, agree_finalizeMessage hs ht h ⟨hrun, hfin⟩⟩

theorem agreeingOutcomes_step {s t : State} (h : s.AgreeUpToHidden t) (hs : s.blockBuffer.wf = true)
    (ht : t.blockBuffer.wf = true) : AgreeingOutcomes (step s) (step t) := by
  have ⟨_, _, _, ⟨hinput, _⟩, _⟩ := h
  cases hin : s.input with
  | nil => exact ⟨s, t, step_idle hin, step_idle (hinput.trans hin), h⟩
  | cons e rest =>
    have hin' : t.input = e :: rest := hinput.trans hin
    have htaken := agree_consumed h rest
    cases e with
    | reset => exact ⟨_, _, step_reset hin, step_reset hin', agree_hardwareReset htaken⟩
    | beat w =>
      cases hd : decode w with
      | illegal =>
        rw [step_illegal hin hd, step_illegal hin' hd]
        exact agreeingOutcomes_rejectBeat htaken
      | command i =>
        rw [step_command hin hd, step_command hin' hd]
        exact agreeingOutcomes_exec htaken hs ht i

/-- Settles O33: the ports read no hidden state, and no operation of a step writes what it shows from it. -/
theorem hiddenStateUnobservable : Obligations.HiddenStateUnobservable := by
  intro s t hs ht h
  have ⟨hstate, hfin, hfault, _, _⟩ := h
  have hvalid := digestValid_congr hfin hfault
  refine ⟨status_congr hfin hfault, hvalid, fun hv => ?_, agreeingOutcomes_step h hs ht⟩
  rw [digest, digest, if_pos hv, if_pos (hvalid ▸ hv), hstate]

end Sys2Proof.Machine
end

section
/-! PROOFS. The family of 20_memory.md. The input port (R51, R62): only taking the first event writes the input, for no
command and no reserved beat reaches outside the engine. -/

namespace Sys2Proof.Machine

/-! ### The input port (20_memory.md R51, R62) -/

theorem exec_sameOutside {i : Instr} {s t : State} (h : exec i s = .next t) : s.SameOutside t := by
  obtain ⟨-, rfl⟩ | ⟨-, rfl⟩ | ⟨-, -, rfl⟩ | ⟨b, -, -, rfl⟩ | ⟨-, -, rfl⟩ | ⟨-, -, -, rfl⟩ := exec_cases h
  · exact ⟨rfl, rfl⟩
  · exact ⟨rfl, rfl⟩
  · exact ⟨fresh_input s, fresh_digestDraw s⟩
  · exact ⟨absorbByte_input b s, absorbByte_digestDraw b s⟩
  · exact ⟨finalizeMessage_input s, finalizeMessage_digestDraw s⟩
  · exact ⟨raise_input .useAfterFinalize s, raise_digestDraw .useAfterFinalize s⟩

theorem rejectBeat_sameOutside {s t : State} (h : rejectBeat s = .next t) : s.SameOutside t := by
  obtain ⟨-, rfl⟩ | ⟨-, rfl⟩ := rejectBeat_cases h
  · exact ⟨rfl, rfl⟩
  · exact ⟨raise_input .illegalBeat s, raise_digestDraw .illegalBeat s⟩

theorem step_input {s t : State} (h : step s = .next t) : t.input = s.input.tail := by
  obtain ⟨hin, rfl⟩ | ⟨e, rest, hin, ⟨-, rfl⟩ | ⟨w, -, -, hreject⟩ | ⟨w, i, -, -, hexec⟩⟩ := step_cases h
  · simp [hin]
  · simp [hin]
  · simpa [hin] using (rejectBeat_sameOutside hreject).1
  · simpa [hin] using (exec_sameOutside hexec).1

/-- Settles O21: a step completes, and of the operations it is made of only the taking of an event writes the input. -/
theorem stepTakesOneEvent : Obligations.StepTakesOneEvent := by
  intro s
  obtain ⟨t, ht⟩ := step_completes s
  refine ⟨t, ht, step_input ht, fun hin => ?_⟩
  obtain rfl : s = t := by simpa [step_idle hin] using ht
  rfl

end Sys2Proof.Machine
end

section
/-! PROOFS. The family of 30_encoding.md. A beat is its two fields put together (R82): the decoder, the encoder, the
reserved ranges and the opcode map all come down to what `op` and `imm8` are. The wire form of UPDATE (R88) runs as one
ABSORB per byte because ABSORB neither reads nor writes the fields outside the spec's tuple. -/

namespace Sys2Proof

/-! ### The fields of a beat (30_encoding.md R82) -/

@[simp] theorem Beat.op_append (o : BitVec 2) (b : Byte) : Beat.op (o ++ b) = o :=
  BitVec.extractLsb'_append_eq_left

@[simp] theorem Beat.imm8_append (o : BitVec 2) (b : Byte) : Beat.imm8 (o ++ b) = b :=
  BitVec.extractLsb'_append_eq_right

theorem Beat.op_append_imm8 (w : Beat) : Beat.op w ++ Beat.imm8 w = w :=
  (BitVec.extractLsb'_append_extractLsb'_eq_extractLsb' rfl).trans BitVec.extractLsb'_eq_self

theorem Beat.toNat_eq (w : Beat) : w.toNat = 256 * (Beat.op w).toNat + (Beat.imm8 w).toNat := by
  have hop : (Beat.op w).toNat = w.toNat / 256 % 4 := by simp [Beat.op, Nat.shiftRight_eq_div_pow]
  have himm : (Beat.imm8 w).toNat = w.toNat % 256 := by simp [Beat.imm8]
  omega

/-! ### The decoder against the encoder (30_encoding.md R85, R86) -/

/-- The sum in `encode` has no carry: ABSORB's byte stands unchanged below its operation code (R84). -/
theorem encode_absorb (b : Byte) : encode (.absorb b) = 0b10#2 ++ b := by
  rw [encode, BitVec.setWidth_eq_append (v := 8) (w := 10) (by decide)]
  exact BitVec.append_zero_add_zero_append (x := 0b10#2) (y := b)

theorem decode_encode (i : Instr) (h : i.wellFormed = true) : decode (encode i) = .command i := by
  cases i with
  | nop => exact Laws.RoundTrip.nop h
  | init => exact Laws.RoundTrip.init h
  | absorb b => exact Laws.RoundTrip.absorb b h
  | finalize => exact Laws.RoundTrip.finalize h

/-- The field values that lead to a branch of the decoder are the fields of the encoding of its command. -/
theorem encode_of_decode {w : Beat} {i : Instr} (h : decode w = .command i) : encode i = w := by
  rw [← Beat.op_append_imm8 w]
  unfold decode at h
  split_ifs at h with hop himm hnop hinit <;> obtain rfl := Decoded.command.inj h
  · rw [hop]; exact encode_absorb _
  · rw [hnop, not_not.mp himm]; rfl
  · rw [hinit, not_not.mp himm]; rfl
  · have hfinalize : Beat.op w = 0b11 := by
      obtain h0 | h1 | h2 | h3 := Machine.fault_cases (Beat.op w)
      exacts [absurd h0 hnop, absurd h1 hinit, absurd h2 hop, h3]
    rw [hfinalize, not_not.mp himm]; rfl

theorem decode_eq_illegal_iff (w : Beat) : decode w = .illegal ↔ Beat.op w ≠ 0b10#2 ∧ Beat.imm8 w ≠ 0#8 := by
  constructor
  · intro h
    unfold decode at h
    split_ifs at h with hop himm
    exact ⟨hop, himm⟩
  · rintro ⟨hop, himm⟩
    exact (if_neg hop).trans (if_pos himm)

theorem reserved_iff (w : Beat) : Beat.reserved w = true ↔ Beat.op w ≠ 0b10#2 ∧ Beat.imm8 w ≠ 0#8 := by
  have hop := (Beat.op w).isLt
  have himm := (Beat.imm8 w).isLt
  simp only [Beat.reserved, Beat.toNat_eq w, ne_eq, BitVec.toNat_eq, BitVec.toNat_ofNat, Bool.or_eq_true,
    Bool.and_eq_true, decide_eq_true_eq]
  omega

/-- Settles O40: one clause per command, and a split along the tests of the decoder. -/
theorem decodeEncodeAgree : Obligations.DecodeEncodeAgree :=
  ⟨decode_encode, fun _ _ => encode_of_decode⟩

/-- Settles O41: `Illegal` and the three ranges both say `op ≠ 10` and `imm8 ≠ 0`; the counts are evaluated. -/
theorem reservedBeatsAreIllegal : Obligations.ReservedBeatsAreIllegal :=
  ⟨fun w => (decode_eq_illegal_iff w).trans (reserved_iff w).symm, by decide +kernel, by decide +kernel⟩

/-! ### The opcode map (30_encoding.md R83) -/

theorem selects_fullMask (m : String) (p w : Beat) : OpcodeRow.selects ⟨m, p, 0x3FF#10⟩ w = (w == p) :=
  congrArg (· == p) (BitVec.and_allOnes (x := w))

/-- ABSORB's mask keeps `op` and clears `imm8`. -/
theorem selects_opMask (m : String) (w : Beat) :
    OpcodeRow.selects ⟨m, 0x200#10, 0x300#10⟩ w = (Beat.op w == 0b10#2) := by
  have hand : w &&& 0x300#10 = Beat.op w ++ 0#8 := by
    conv_lhs =>
      rw [← Beat.op_append_imm8 w, show 0x300#10 = BitVec.allOnes 2 ++ 0#8 from rfl, BitVec.and_append,
        BitVec.and_allOnes, BitVec.and_zero]
  rw [OpcodeRow.selects, hand, Bool.eq_iff_iff, beq_iff_eq, beq_iff_eq]
  exact BitVec.append_left_inj (s₂ := 0b10#2) 0#8

/-- Settles O42: the three rows with a full mask select one beat each, which has `imm8 = 0` and is no ABSORB. -/
theorem opcodeMapSelectsOneRow : Obligations.OpcodeMapSelectsOneRow := by
  constructor
  · intro w i h
    obtain rfl := encode_of_decode h
    cases i with
    | nop => decide
    | init => decide
    | finalize => decide
    | absorb b =>
      have hne {p : Beat} (hp : Beat.op p ≠ 0b10#2) : 0b10#2 ++ b ≠ p := fun hw => hp (hw ▸ Beat.op_append _ b)
      simp [opcodeMap, selects_fullMask, selects_opMask, encode_absorb, Instr.mnemonic,
        hne (p := 0x000#10) (by decide), hne (p := 0x100#10) (by decide), hne (p := 0x300#10) (by decide)]
  · intro w h
    obtain ⟨hop, himm⟩ := (decode_eq_illegal_iff w).mp h
    have hne {p : Beat} (hp : Beat.imm8 p = 0) : w ≠ p := fun hw => himm (hw ▸ hp)
    simp [opcodeMap, selects_fullMask, selects_opMask, hop,
      hne (p := 0x000#10) rfl, hne (p := 0x100#10) rfl, hne (p := 0x300#10) rfl]

/-- Settles O43: the decoder evaluated on ten beats. -/
theorem specWordsDecode : Obligations.SpecWordsDecode := by
  unfold Obligations.SpecWordsDecode
  decide

end Sys2Proof

namespace Sys2Proof.Machine

/-! ### Pseudo-instructions (30_encoding.md R88) -/

theorem beatsOf_updateCommands (data : List Byte) :
    beatsOf (updateCommands data) = data.map fun b => Event.beat (0b10#2 ++ b) := by
  simp [beatsOf, updateCommands, encode_absorb]

theorem beatsOf_hashCommands (data : List Byte) :
    beatsOf (hashCommands data) = .beat 0x100 :: (beatsOf (updateCommands data) ++ [.beat 0x300]) := by
  simp [beatsOf, hashCommands, encode]

/-- Settles O39: UPDATE maps a list byte by byte, so it expands a concatenation piece by piece. -/
theorem pseudoInstructionsExpand : Obligations.PseudoInstructionsExpand := by
  intro x y
  refine ⟨beatsOf_updateCommands x, rfl, ?_, ?_⟩
  · simp only [beatsOf_updateCommands, List.map_append]
  · rw [beatsOf_hashCommands, beatsOf_updateCommands]

/-! ### The wire form of UPDATE runs (30_encoding.md R88, 42_commands.md R143) -/

/-- The state with given values in the fields outside the spec's tuple, the ones `State.SameOutside` compares. -/
def State.withOutside (input : List Event) (draw : Nat) (s : State) : State :=
  { s with input := input, digestDraw := draw }

theorem absorbByte_withOutside (b : Byte) (input : List Event) (draw : Nat) (s : State) :
    absorbByte b (s.withOutside input draw) = (absorbByte b s).withOutside input draw := by
  simp only [absorbByte, storeByte_eq]
  rfl

theorem absorbAll_withOutside (data : List Byte) (input : List Event) (draw : Nat) (s : State) :
    absorbAll data (s.withOutside input draw) = (absorbAll data s).withOutside input draw := by
  induction data generalizing s with
  | nil => rfl
  | cons b data ih => exact (congrArg (absorbAll data) (absorbByte_withOutside b input draw s)).trans (ih _)

theorem step_absorb_of_active {s : State} {b : Byte} {rest : List Event} (h : s.Active)
    (hin : s.input = .beat (encode (.absorb b)) :: rest) :
    step s = .next ((absorbByte b s).withOutside rest (s.digestDraw + 1)) :=
  calc step s
    _ = execAbsorb b (consumed rest s) := step_command hin (decode_encode (.absorb b) rfl)
    _ = .next (absorbByte b (consumed rest s)) := execAbsorb_of_active b h
    _ = .next ((absorbByte b s).withOutside rest (s.digestDraw + 1)) :=
      congrArg Host.Outcome.next (absorbByte_withOutside b rest (s.digestDraw + 1) s)

/-- The draw of the digest port moves on once per beat, as every event moves it (assumption 3). -/
theorem runSteps_updateCommands (data : List Byte) {s : State} {rest : List Event} (h : s.Active)
    (hin : s.input = beatsOf (updateCommands data) ++ rest) :
    runSteps data.length s = .next ((absorbAll data s).withOutside rest (s.digestDraw + data.length)) := by
  induction data generalizing s with
  | nil => subst hin; rfl
  | cons b data ih =>
    have hact : (absorbByte b s).Active := ⟨(absorbByte_fault b s).trans h.1, (absorbByte_finalized b s).trans h.2⟩
    calc runSteps (data.length + 1) s
      _ = runSteps data.length
            ((absorbByte b s).withOutside (beatsOf (updateCommands data) ++ rest) (s.digestDraw + 1)) :=
        runSteps_succ _ (step_absorb_of_active h hin)
      _ = .next ((absorbAll data ((absorbByte b s).withOutside _ _)).withOutside rest
            (s.digestDraw + 1 + data.length)) := ih hact rfl
      _ = .next ((absorbAll (b :: data) s).withOutside rest (s.digestDraw + (data.length + 1))) := by
        rw [absorbAll_withOutside, Nat.add_right_comm]; rfl

/-- Settles O36: each step takes the next beat and absorbs its byte, and the
fields outside the spec's tuple, which the steps move on, make no difference to what is absorbed. -/
theorem wireFormRuns : Obligations.WireFormRuns := fun data _ _ h hin =>
  ⟨_, runSteps_updateCommands data h hin, rfl⟩

end Sys2Proof.Machine
end

section
/-! PROOFS. The family of 40_word_functions.md. The word functions bit by bit (R100 to R111): once the bits of `xor`,
`and`, `not`, `rotr` and `shr` are known, those of the composed functions follow. Control is free of data (R101): on
states alike in their control fields the same entry tests pass, and no operation writes these fields from data. -/

namespace Sys2Proof.Machine

/-! ### Sums, shifts and bitwise operations (40_word_functions.md R100 to R104) -/

theorem toNat_add32 (x y : Word) : (add32 x y).toNat = (x.toNat + y.toNat) % 2 ^ 32 := BitVec.toNat_add x y

theorem add32_comm (x y : Word) : add32 x y = add32 y x := BitVec.add_comm x y

theorem add32_assoc (x y z : Word) : add32 (add32 x y) z = add32 x (add32 y z) := BitVec.add_assoc x y z

theorem toNat_shr (x : Word) (n : Nat) : (shr x n).toNat = x.toNat / 2 ^ n := by
  rw [shr, BitVec.toNat_ushiftRight, Nat.shiftRight_eq_div_pow]

theorem toNat_not32 (x : Word) : (not32 x).toNat = 0xFFFFFFFF - x.toNat := BitVec.toNat_not

@[simp] theorem getLsbD_xor32 (x y : Word) (j : Nat) :
    (xor32 x y).getLsbD j = (x.getLsbD j ^^ y.getLsbD j) := BitVec.getLsbD_xor

@[simp] theorem getLsbD_and32 (x y : Word) (j : Nat) :
    (and32 x y).getLsbD j = (x.getLsbD j && y.getLsbD j) := BitVec.getLsbD_and

theorem getLsbD_not32 (x : Word) {j : Nat} (hj : j < 32) : (not32 x).getLsbD j = !x.getLsbD j := by
  simp [not32, hj]

/-- Nothing stands past bit 31, so the shift is logical (R103). -/
theorem getLsbD_shr (x : Word) (n j : Nat) :
    (shr x n).getLsbD j = (decide (j + n < 32) && x.getLsbD (j + n)) := by
  rw [shr, BitVec.getLsbD_ushiftRight, Nat.add_comm n j]
  by_cases h : j + n < 32
  · simp [h]
  · simp [h, BitVec.getLsbD_of_ge x (j + n) (by omega)]

/-- Below `32 - n` the bit comes from the right shift, from there on from the left shift. -/
theorem getLsbD_rotr (x : Word) {n j : Nat} (hn : n ≤ 31) (hj : j < 32) :
    (rotr x n).getLsbD j = x.getLsbD ((j + n) % 32) := by
  rw [rotr, BitVec.getLsbD_or, BitVec.getLsbD_ushiftRight, BitVec.getLsbD_shiftLeft]
  by_cases h : j + n < 32
  · have hlow : j < 32 - n := by omega
    simp [hlow, Nat.mod_eq_of_lt h, Nat.add_comm n j]
  · have hhigh : ¬ j < 32 - n := by omega
    have hmod : (j + n) % 32 = j - (32 - n) := by omega
    simp [hj, hhigh, hmod, BitVec.getLsbD_of_ge x (n + j) (by omega)]

/-- Settles O48: `+32` is the addition of bit vectors. -/
theorem add32Wraps : Obligations.Add32Wraps := fun x y z =>
  ⟨toNat_add32 x y, add32_comm x y, add32_assoc x y z⟩

/-- Settles O49: the bit law of `rotr`, which needs no lower bound on the amount. -/
theorem rotateRightBits : Obligations.RotateRightBits := fun x _ _ _ hn hj => getLsbD_rotr x hn hj

/-- Settles O50: the laws of the four functions put together. -/
theorem shiftAndBitwise : Obligations.ShiftAndBitwise := fun x y =>
  ⟨toNat_shr x, toNat_not32 x, fun j hj => ⟨getLsbD_xor32 x y j, getLsbD_and32 x y j, getLsbD_not32 x hj⟩⟩

/-! ### The composed functions (40_word_functions.md R105 to R111) -/

theorem getLsbD_ch (e f g : Word) {j : Nat} (hj : j < 32) :
    (ch e f g).getLsbD j = if e.getLsbD j then f.getLsbD j else g.getLsbD j := by
  rw [ch, getLsbD_xor32, getLsbD_and32, getLsbD_and32, getLsbD_not32 e hj]
  cases e.getLsbD j <;> simp

/-- The exclusive or of the three pairwise products is the majority of three bits. -/
theorem majority_of_pairs (p q r : Bool) :
    (p && q ^^ p && r ^^ q && r) = decide (2 ≤ p.toNat + q.toNat + r.toNat) := by
  revert p q r; decide

theorem getLsbD_maj (a b c : Word) (j : Nat) :
    (maj a b c).getLsbD j = decide (2 ≤ (a.getLsbD j).toNat + (b.getLsbD j).toNat + (c.getLsbD j).toNat) := by
  simp only [maj, getLsbD_xor32, getLsbD_and32, majority_of_pairs]

/-- Settles O51: `Ch` by the two values of its first bit, `Maj` by the eight of its three bits. -/
theorem chooseAndMajority : Obligations.ChooseAndMajority := fun a b c j hj =>
  ⟨getLsbD_ch a b c hj, getLsbD_maj a b c j⟩

/-- `S0` and `S1` are exclusive ors of three rotations (R107, R108). -/
theorem getLsbD_three_rotr (x : Word) {n m k j : Nat} (hn : n ≤ 31) (hm : m ≤ 31) (hk : k ≤ 31) (hj : j < 32) :
    (xor32 (xor32 (rotr x n) (rotr x m)) (rotr x k)).getLsbD j =
      ((x.getLsbD ((j + n) % 32) ^^ x.getLsbD ((j + m) % 32)) ^^ x.getLsbD ((j + k) % 32)) := by
  rw [getLsbD_xor32, getLsbD_xor32, getLsbD_rotr x hn hj, getLsbD_rotr x hm hj, getLsbD_rotr x hk hj]

/-- `s0` and `s1` are exclusive ors of two rotations and a shift (R109, R110). -/
theorem getLsbD_two_rotr_shr (x : Word) {n m k j : Nat} (hn : n ≤ 31) (hm : m ≤ 31) (hj : j < 32) :
    (xor32 (xor32 (rotr x n) (rotr x m)) (shr x k)).getLsbD j =
      ((x.getLsbD ((j + n) % 32) ^^ x.getLsbD ((j + m) % 32)) ^^ (decide (j + k < 32) && x.getLsbD (j + k))) := by
  rw [getLsbD_xor32, getLsbD_xor32, getLsbD_rotr x hn hj, getLsbD_rotr x hm hj, getLsbD_shr]

/-- Settles O52: the two forms, at the twelve amounts of R111. -/
theorem sigmaBits : Obligations.SigmaBits := fun x _ hj =>
  ⟨getLsbD_three_rotr x (by decide) (by decide) (by decide) hj,
    getLsbD_three_rotr x (by decide) (by decide) (by decide) hj,
    getLsbD_two_rotr_shr x (by decide) (by decide) hj,
    getLsbD_two_rotr_shr x (by decide) (by decide) hj⟩

/-! ### Control is free of data (40_word_functions.md R101) -/

/-- Commands of one shape are equal, or two ABSORBs. -/
theorem sameShape_cases {i j : Instr} (h : i.sameShape j = true) :
    i = j ∨ ∃ b c, i = .absorb b ∧ j = .absorb c := by
  match i, j, h with
  | .nop, .nop, _ => exact .inl rfl
  | .init, .init, _ => exact .inl rfl
  | .absorb b, .absorb c, _ => exact .inr ⟨b, c, rfl, rfl⟩
  | .finalize, .finalize, _ => exact .inl rfl

theorem length_commandBlocks_absorb (b : Byte) (s : State) :
    (commandBlocks (.absorb b) s).length = if s.blockFill.toNat = 63 then 1 else 0 := by
  rw [commandBlocks]; split <;> rfl

/-- The length of what FINALIZE compresses is that of the live bytes and the padding, whatever they hold. -/
theorem length_commandBlocks_finalize (s : State) :
    (commandBlocks .finalize s).length = (paddedTail s).length / 64 := by
  simp [commandBlocks, paddedTail, blocksOf]

theorem length_commandBlocks_congr {s t : State} (h : s.blockFill = t.blockFill) (i : Instr) :
    (commandBlocks i s).length = (commandBlocks i t).length := by
  cases i with
  | nop => rfl
  | init => rfl
  | absorb b => rw [length_commandBlocks_absorb, length_commandBlocks_absorb, h]
  | finalize =>
    rw [length_commandBlocks_finalize, length_commandBlocks_finalize, length_paddedTail, length_paddedTail, h]

theorem agreeOnControl_raise {s t : State} (h : s.AgreeOnControl t) (f : FaultCause) :
    (raise f s).AgreeOnControl (raise f t) := by
  obtain ⟨hlen, hfill, hfin, -⟩ := h
  exact ⟨hlen, hfill, hfin, rfl⟩

theorem agreeOnControl_fresh {s t : State} (h : s.AgreeOnControl t) : (fresh s).AgreeOnControl (fresh t) := by
  obtain ⟨-, -, -, hfault⟩ := h
  exact ⟨rfl, rfl, rfl, hfault⟩

theorem agreeOnControl_absorbByte {s t : State} (h : s.AgreeOnControl t) (b c : Byte) :
    (absorbByte b s).AgreeOnControl (absorbByte c t) := by
  obtain ⟨hlen, hfill, hfin, hfault⟩ := h
  refine ⟨?_, ?_, by simpa using hfin, by simpa using hfault⟩
  · rw [absorbByte_totalLength, absorbByte_totalLength, hlen]
  · rw [absorbByte_blockFill, absorbByte_blockFill, hfill]

theorem agreeOnControl_finalizeMessage {s t : State} (h : s.AgreeOnControl t) :
    (finalizeMessage s).AgreeOnControl (finalizeMessage t) := by
  obtain ⟨hlen, hfill, -, hfault⟩ := h
  exact ⟨by simpa using hlen, by simpa using hfill, by simp, by simpa using hfault⟩

/-- Both outcomes are next states alike in their control fields. -/
def AlikeInControl (o p : StepOutcome) : Prop := ∃ s t, o = .next s ∧ p = .next t ∧ s.AgreeOnControl t

section EntryTests
variable {s t : State} {k l : State → StepOutcome} (h : s.AgreeOnControl t) (hkl : AlikeInControl (k s) (l t))
include h hkl

theorem alikeInControl_unlessHalted : AlikeInControl (unlessHalted s k) (unlessHalted t l) := by
  have ⟨_, _, _, hfault⟩ := h
  by_cases hrun : s.fault = 0#2
  · rwa [unlessHalted_of_running hrun, unlessHalted_of_running (hfault ▸ hrun)]
  · exact ⟨s, t, unlessHalted_of_halted hrun k, unlessHalted_of_halted (hfault ▸ hrun) l, h⟩

theorem alikeInControl_unlessFinalized : AlikeInControl (unlessFinalized s k) (unlessFinalized t l) := by
  have ⟨_, _, hfin, _⟩ := h
  cases hc : s.finalized with
  | false => rwa [unlessFinalized_of_accepting hc, unlessFinalized_of_accepting (hfin ▸ hc)]
  | true =>
    exact ⟨_, _, unlessFinalized_of_finalized hc k, unlessFinalized_of_finalized (hfin ▸ hc) l,
      agreeOnControl_raise h _⟩

end EntryTests

theorem alikeInControl_execAbsorb {s t : State} (h : s.AgreeOnControl t) (b c : Byte) :
    AlikeInControl (execAbsorb b s) (execAbsorb c t) :=
  alikeInControl_unlessHalted h <| alikeInControl_unlessFinalized h
    ⟨_, _, rfl, rfl, agreeOnControl_absorbByte h b c⟩

theorem alikeInControl_exec {s t : State} (h : s.AgreeOnControl t) (i : Instr) :
    AlikeInControl (exec i s) (exec i t) := by
  cases i with
  | nop => exact alikeInControl_unlessHalted h ⟨_, _, rfl, rfl, h⟩
  | init =>
    simp only [exec, execInit]
    exact alikeInControl_unlessHalted h ⟨_, _, rfl, rfl, agreeOnControl_fresh h⟩
  | absorb b => exact alikeInControl_execAbsorb h b b
  | finalize =>
    simp only [exec, execFinalize]
    exact alikeInControl_unlessHalted h <| alikeInControl_unlessFinalized h
      ⟨_, _, rfl, rfl, agreeOnControl_finalizeMessage h⟩

/-- Settles O34: equal commands are one case, two ABSORBs of different bytes the other. -/
theorem dataNeverSteersControl : Obligations.DataNeverSteersControl := by
  intro s t i j h hshape
  have ⟨_, hfill, _, _⟩ := h
  obtain rfl | ⟨b, c, rfl, rfl⟩ := sameShape_cases hshape
  · exact ⟨length_commandBlocks_congr hfill i, alikeInControl_exec h i⟩
  · refine ⟨?_, alikeInControl_execAbsorb h b c⟩
    rw [length_commandBlocks_absorb, length_commandBlocks_absorb, hfill]

end Sys2Proof.Machine
end

section
/-! PROOFS. The family of 41_compression.md. What the finished schedule holds is known entry by entry (R122, R123),
so the rounds (R124 to R127) and the sixteen-word window (R130) are compared with it and never with the way it was
filled. PROCESS follows how a sequence of bytes is cut into blocks (R128). -/

namespace Sys2Proof.Machine

/-! ### The first sixteen schedule words (41_compression.md R122, 20_memory.md R52) -/

theorem toNat_be32 (b0 b1 b2 b3 : Byte) :
    (be32 b0 b1 b2 b3).toNat = b0.toNat * 2 ^ 24 + b1.toNat * 2 ^ 16 + b2.toNat * 2 ^ 8 + b3.toNat := by
  have h1 := Nat.shiftLeft_add_eq_or_of_lt b1.isLt b0.toNat
  have h2 := Nat.shiftLeft_add_eq_or_of_lt b2.isLt (b0 ++ b1).toNat
  have h3 := Nat.shiftLeft_add_eq_or_of_lt b3.isLt (b0 ++ b1 ++ b2).toNat
  rw [← BitVec.toNat_append, Nat.shiftLeft_eq] at h1 h2 h3
  rw [be32]
  omega

/-- `MemRead(addr, 4)` is BE32 of the four bytes (00_scope.md R10, R11). -/
theorem memRead_four (m : Memory) (addr : Nat) (h : addr + 4 ≤ 64) :
    memRead m addr 4 h = be32 (bufRead m ⟨addr, by omega⟩) (bufRead m ⟨addr + 1, by omega⟩)
      (bufRead m ⟨addr + 2, by omega⟩) (bufRead m ⟨addr + 3, by omega⟩) := by
  have hfin : List.finRange 4 = [0, 1, 2, 3] := by decide
  refine BitVec.eq_of_toNat_eq ?_
  rw [toNat_be32, memRead, BitVec.toNat_ofNat, hfin]
  simp only [List.foldl_cons, List.foldl_nil, Fin.coe_ofNat_eq_mod, Nat.add_zero, Nat.reduceMod]
  omega

/-- Settles O53: the schedule keeps the words it loads, and a loaded word is BE32 of four bytes. -/
theorem scheduleLoadsBigEndian : Obligations.ScheduleLoadsBigEndian := by
  refine fun i h => ⟨fun B => ?_, fun m => ?_⟩
  · rw [schedule_low B i h, blockWord, toNat_be32]
  · rw [schedule_low _ i h, memRead_four, blockWord]
    simp only [getElem_bufBlock]

/-- Settles O54: no entry that the recurrence reads is written again. -/
theorem scheduleRecurrence : Obligations.ScheduleRecurrence := schedule_high

/-! ### Rounds (41_compression.md R124 to R127) -/

/-- Settles O55: reducing after every addition gives the same as reducing the exact sum once. -/
theorem roundLaw : Obligations.RoundLaw := by
  refine fun W i v => ⟨?_, ?_, rfl, rfl, rfl, rfl, rfl, rfl⟩ <;>
  · simp only [roundAt, roundWith, toNat_add32]
    omega

/-- A sequence that takes one round at a time is the sequence of the first `n` rounds. -/
theorem rounds_eq_of_step {W : Schedule} {v : Nat → Work}
    (hstep : ∀ (i : Nat) (h : i < 64), v (i + 1) = roundAt W ⟨i, h⟩ (v i)) (n : Nat) (hn : n ≤ 64) :
    rounds W n hn (v 0) = v n := by
  induction n with
  | zero => rfl
  | succ n ih => rw [rounds, ih, hstep n hn]

/-- Settles O56: the sequence is the model's rounds, which write no state word. -/
theorem compressIsSixtyFourRounds : Obligations.CompressIsSixtyFourRounds := by
  intro x B v hinit hstep
  have hv : rounds (schedule B) 64 (by omega) (roundInit x) = v 64 := by
    rw [← rounds_eq_of_step hstep 64 (by omega), hinit, roundInit]
  rw [compress, hv, stateUpdate]

/-! ### The sixteen-word window (41_compression.md R130) -/

/-- The window `w` holds `W[n .. n + 16)`, as far as the schedule goes. -/
def ShowsSchedule (W : Schedule) (n : Nat) (w : Window) : Prop :=
  ∀ (k : Nat) (hk : k < 16) (h : n + k < 64), w[k] = W[n + k]

theorem showsSchedule_windowLoad (B : Block) : ShowsSchedule (schedule B) 0 (windowLoad B) := by
  intro k hk _
  simp [windowLoad, schedule_low B k hk]

/-- A word that only moves is shown already; the one appended obeys the recurrence of the schedule. -/
theorem showsSchedule_windowStep {B : Block} {n : Nat} {w : Window} (hw : ShowsSchedule (schedule B) n w) :
    ShowsSchedule (schedule B) (n + 1) (windowStep w) := by
  intro k hk h
  by_cases hlast : k < 15
  · simp only [windowStep, Vector.getElem_ofFn, dif_pos hlast]
    rw [hw (k + 1) (by omega) (by omega)]
    simp only [show n + (k + 1) = n + 1 + k by omega]
  · obtain rfl : k = 15 := by omega
    rw [schedule_high B (n + 1 + 15) (by omega) h, schedEntry]
    simp only [windowStep, Vector.getElem_ofFn, hlast, dite_false]
    rw [hw 0 (by omega) (by omega), hw 1 (by omega) (by omega), hw 9 (by omega) (by omega),
      hw 14 (by omega) (by omega)]
    rfl

/-- Round by round the window shows what is ahead in the schedule, so both compressions make the same rounds. -/
theorem windowedRounds_spec (x : HashWords) (B : Block) (n : Nat) (hn : n ≤ 64) :
    ShowsSchedule (schedule B) n (windowedRounds x B n hn).1 ∧
      (windowedRounds x B n hn).2 = rounds (schedule B) n hn (roundInit x) := by
  induction n with
  | zero => exact ⟨showsSchedule_windowLoad B, rfl⟩
  | succ n ih =>
    obtain ⟨hshows, hwork⟩ := ih (by omega)
    refine ⟨showsSchedule_windowStep hshows, ?_⟩
    rw [windowedRounds, rounds, roundAt, hwork, hshows 0 (by omega) hn]
    rfl

/-- Settles O57: after 64 rounds both have the same working variables to add. -/
theorem windowedScheduleAgrees : Obligations.WindowedScheduleAgrees := by
  intro x B
  rw [compressWindowed, compress, (windowedRounds_spec x B 64 (by omega)).2]

/-! ### PROCESS (41_compression.md R128) -/

theorem process_of_block (x : HashWords) {bytes : List Byte} (h : bytes.length = 64) :
    process x bytes = compress x (blockOfBytes bytes) := by
  rw [process, blocksOf_singleton h, processBlocks_singleton]

/-- Settles O58: whole blocks in front are cut off whole, and one block is one compression. -/
theorem processCarriesState : Obligations.ProcessCarriesState := by
  refine fun x bytes more => ⟨by rw [process, blocksOf_nil, processBlocks_nil], fun h => ?_, process_append x more⟩
  rw [process_append x more (by omega), process_of_block x h]

end Sys2Proof.Machine
end

section
/-! PROOFS. The family of 42_commands.md, first part: the step runs the decoded command (R140), NOP, INIT and ABSORB
complete (R141 to R143), what a command leaves unchanged, and the phase table (R150). -/

namespace Sys2Proof.Machine

/-! ### The step (42_commands.md R140) -/

/-- Settles O18: a beat that decodes to a command is carried out as that command. -/
theorem stepRunsDecodedCommand : Obligations.StepRunsDecodedCommand := fun _ _ _ _ hin hd _ => step_command hin hd

/-- A table word is read as a command when it is a beat of the port that decodes to it. -/
theorem beat_of_decodeTableWord {nbits w : Nat} {i : Instr} (h : decodeTableWord nbits w = some i) :
    ∃ b, beatOfBits nbits w = some b ∧ decode b = .command i := by
  unfold decodeTableWord at h
  cases hb : beatOfBits nbits w with
  | none => simp [hb] at h
  | some b =>
    cases hd : decode b with
    | illegal => simp [hb, hd] at h
    | command j => exact ⟨b, rfl, by simpa [hb, hd] using h⟩

theorem withFetchWord_of_beat {nbits w : Nat} {b : Beat} (h : beatOfBits nbits w = some b) (s : State) :
    s.withFetchWord nbits w = { s with input := .beat b :: s.input } := by
  rw [State.withFetchWord, h]

/-- Settles O19: the presented beat is the next event, and taking it gives the old input back. -/
theorem presentedTableWordRuns : Obligations.PresentedTableWordRuns := by
  intro s nbits w i h
  obtain ⟨b, hb, hd⟩ := beat_of_decodeTableWord h
  rw [withFetchWord_of_beat hb]
  exact step_command rfl hd

/-! ### NOP, INIT, ABSORB (42_commands.md R141 to R143) -/

/-- Settles O6: the halt test of NOP has equal branches, and `op = 00` is not ABSORB's operation code. -/
theorem nopChangesNothing : Obligations.NopChangesNothing :=
  ⟨execNop_eq, fun w hop himm => (decode_eq_illegal_iff w).mpr ⟨by rw [hop]; decide, himm⟩⟩

theorem status_of_active {s : State} (h : s.Active) : status s = 0x00 :=
  (status_eq_status_flagged h.2 h.1).trans rfl

theorem status_of_hasResult {s : State} (h : s.HasResult) : status s = 0x11 :=
  (status_eq_status_flagged h.1 h.2).trans rfl

/-- Settles O4: INIT runs to the fresh state, whose outputs are those of phase ACTIVE, or meets the halt test. -/
theorem initMakesFresh : Obligations.InitMakesFresh :=
  fun s => ⟨fun hrun => ⟨fresh s, execInit_of_running hrun, isFresh_fresh s, hrun, rfl,
    status_of_active ⟨hrun, rfl⟩, rfl, rfl⟩, fun hhalt => exec_of_halted hhalt .init⟩

theorem active_absorbByte {s : State} (h : s.Active) (b : Byte) : (absorbByte b s).Active :=
  ⟨(absorbByte_fault b s).trans h.1, (absorbByte_finalized b s).trans h.2⟩

theorem sameOutside_absorbByte (b : Byte) (s : State) : s.SameOutside (absorbByte b s) :=
  ⟨absorbByte_input b s, absorbByte_digestDraw b s⟩

theorem toNat_absorbByte_totalLength (b : Byte) (s : State) :
    (absorbByte b s).totalLength.toNat = (s.totalLength.toNat + 1) % 2 ^ 64 := by
  rw [absorbByte_totalLength]
  exact BitVec.toNat_add _ _

theorem bufRead_absorbByte_self {s : State} (hm : s.blockBuffer.wf = true) (b : Byte) :
    bufRead (absorbByte b s).blockBuffer (fillOffset s) = b := by
  rw [absorbByte_blockBuffer, bufRead_bufWrite_self hm]

theorem bufRead_absorbByte_ne {s : State} (b : Byte) {a : Fin 64} (h : a ≠ fillOffset s) :
    bufRead (absorbByte b s).blockBuffer a = bufRead s.blockBuffer a := by
  rw [absorbByte_blockBuffer, bufRead_bufWrite_ne _ _ h]

theorem absorbByte_state_of_not_full (b : Byte) {s : State} (h : s.blockFill ≠ 63) :
    (absorbByte b s).state = s.state :=
  (absorbByte_state b s).trans (if_neg fun hfill => h (BitVec.eq_of_toNat_eq hfill))

/-- Settles O7: below the 64th byte the fill moves on without a wrap and nothing is compressed. -/
theorem absorbStoresByte : Obligations.AbsorbStoresByte := by
  intro b s hact hm hfill
  have hne : s.blockFill.toNat ≠ 63 := fun h => hfill (BitVec.eq_of_toNat_eq h)
  have hlt := s.blockFill.isLt
  have hmove : (absorbByte b s).blockFill.toNat = s.blockFill.toNat + 1 := by
    rw [toNat_absorbByte_blockFill]; omega
  exact ⟨absorbByte b s, execAbsorb_of_active b hact, toNat_absorbByte_totalLength b s, hmove,
    bufRead_absorbByte_self hm b, fun _ => bufRead_absorbByte_ne b, absorbByte_state_of_not_full b hfill,
    active_absorbByte hact b, sameOutside_absorbByte b s⟩

/-- Settles O8: at the 64th byte the store is at offset 63 and the buffer with it is the block that is compressed. -/
theorem absorbFlushesFullBlock : Obligations.AbsorbFlushesFullBlock := by
  intro b s hact hm hfill
  have hfull : s.blockFill.toNat = 63 := by rw [hfill]; rfl
  have hoff : fillOffset s = 63 := Fin.ext hfull
  have hblock : bufBlock (bufWrite s.blockBuffer (fillOffset s) b) =
      Vector.ofFn fun i : Fin 64 => if i = 63 then b else bufRead s.blockBuffer i := by
    simp only [bufBlock, bufRead_bufWrite hm, hoff]
  refine ⟨absorbByte b s, execAbsorb_of_active b hact, toNat_absorbByte_totalLength b s, ?_,
    hoff ▸ bufRead_absorbByte_self hm b, fun _ ha => bufRead_absorbByte_ne b (hoff ▸ ha), ?_,
    active_absorbByte hact b, sameOutside_absorbByte b s⟩
  · rw [absorbByte_blockFill, if_pos hfull]
  · rw [absorbByte_state, if_pos hfull, hblock]

/-! ### Frames (42_commands.md R141 to R146) -/

/-- The padding of the one-block path starts at `block_fill`. -/
theorem bufRead_finalizeMessage_live {s : State} (h : s.blockFill.toNat ≤ 55) {a : Fin 64}
    (ha : a.val < s.blockFill.toNat) :
    bufRead (finalizeMessage s).blockBuffer a = bufRead s.blockBuffer a := by
  rw [finalizeMessage_short h, padDone_blockBuffer, padFlush_blockBuffer, padLen_blockBuffer,
    bufRead_memWrite_outside _ _ _ _ _ a (by omega), padZero_blockBuffer,
    bufRead_zeroFill_outside _ _ _ a (by rw [padMark_blockFill]; omega), padMark_blockBuffer,
    bufRead_memWrite_outside _ _ _ _ _ a (by rw [fillOffset_val]; omega)]

/-- A step or a command answers one next state. -/
theorem eq_of_next_eq {o : StepOutcome} {t u : State} (ht : o = .next t) (hu : o = .next u) : t = u :=
  Host.Outcome.next.inj (ht.symm.trans hu)

theorem exec_init_cases {s t : State} (h : exec .init s = .next t) :
    (s.fault ≠ 0#2 ∧ t = s) ∨ (s.fault = 0#2 ∧ t = fresh s) := by
  simpa using exec_cases h

theorem exec_absorb_cases {b : Byte} {s t : State} (h : exec (.absorb b) s = .next t) :
    (s.fault ≠ 0#2 ∧ t = s) ∨ (s.Active ∧ t = absorbByte b s) ∨
      (s.fault = 0#2 ∧ s.finalized = true ∧ t = raise .useAfterFinalize s) := by
  simpa using exec_cases h

theorem exec_finalize_cases {s t : State} (h : exec .finalize s = .next t) :
    (s.fault ≠ 0#2 ∧ t = s) ∨ (s.Active ∧ t = finalizeMessage s) ∨
      (s.fault = 0#2 ∧ s.finalized = true ∧ t = raise .useAfterFinalize s) := by
  simpa using exec_cases h

theorem not_finalized_of_active {s : State} (h : s.Active) : s.finalized ≠ true := by
  simp [h.2]

/-- Settles O30: a discarded beat changes nothing, a raised fault nothing but `fault`, and what the command itself
writes is known field by field. -/
theorem commandFrames : Obligations.CommandFrames := by
  intro s t
  refine ⟨fun h => ?_, fun h => ⟨?_, exec_sameOutside h⟩, fun b h => ?_, fun h => ?_⟩
  · exact eq_of_next_eq h (execNop_eq s)
  · obtain ⟨-, rfl⟩ | ⟨-, rfl⟩ := exec_init_cases h <;> rfl
  · have hout := exec_sameOutside h
    obtain ⟨-, rfl⟩ | ⟨hact, rfl⟩ | ⟨-, hfin, rfl⟩ := exec_absorb_cases h
    · exact ⟨rfl, hout, fun _ => rfl, fun _ => rfl, fun _ => ⟨rfl, rfl, rfl, rfl⟩, fun _ _ => rfl⟩
    · exact ⟨absorbByte_finalized b s, hout, fun _ => absorbByte_fault b s, absorbByte_state_of_not_full b,
        fun hfin => absurd hfin (not_finalized_of_active hact), fun _ => bufRead_absorbByte_ne b⟩
    · exact ⟨rfl, hout, fun hno => absurd (hno.symm.trans hfin) Bool.false_ne_true, fun _ => rfl,
        fun _ => ⟨rfl, rfl, rfl, rfl⟩, fun _ _ => rfl⟩
  · have hout := exec_sameOutside h
    obtain ⟨-, rfl⟩ | ⟨hact, rfl⟩ | ⟨-, hfin, rfl⟩ := exec_finalize_cases h
    · exact ⟨rfl, rfl, hout, fun _ => rfl, fun _ => ⟨rfl, rfl⟩, fun _ _ _ => rfl⟩
    · exact ⟨finalizeMessage_totalLength s, finalizeMessage_blockFill s, hout, fun _ => finalizeMessage_fault s,
        fun hfin => absurd hfin (not_finalized_of_active hact), fun hfill _ => bufRead_finalizeMessage_live hfill⟩
    · exact ⟨rfl, rfl, hout, fun hno => absurd (hno.symm.trans hfin) Bool.false_ne_true, fun _ => ⟨rfl, rfl⟩,
        fun _ _ _ => rfl⟩

/-! ### The phases (42_commands.md R150) -/

/-- The phase for the eight values of `finalized` and `fault`, of which it is a function. -/
theorem phases_flagged : ∀ (finalized : Bool) (fault : BitVec 2),
    (phase (flagged finalized fault) = .active ↔ finalized = false ∧ fault = 0) ∧
    (phase (flagged finalized fault) = .done ↔ finalized = true ∧ fault = 0) ∧
    (phase (flagged finalized fault) = .halt ↔ fault ≠ 0) := by decide

theorem phase_eq_active_iff (s : State) : phase s = .active ↔ s.finalized = false ∧ s.fault = 0 :=
  (phases_flagged s.finalized s.fault).1

theorem phase_eq_done_iff (s : State) : phase s = .done ↔ s.finalized = true ∧ s.fault = 0 :=
  (phases_flagged s.finalized s.fault).2.1

theorem phase_eq_halt_iff (s : State) : phase s = .halt ↔ s.fault ≠ 0 :=
  (phases_flagged s.finalized s.fault).2.2

theorem active_of_phase {s : State} (h : phase s = .active) : s.Active := ((phase_eq_active_iff s).mp h).symm

theorem hasResult_of_phase {s : State} (h : phase s = .done) : s.HasResult := (phase_eq_done_iff s).mp h

theorem running_of_phase {s : State} (h : phase s ≠ .halt) : s.fault = 0 :=
  not_not.mp (mt (phase_eq_halt_iff s).mpr h)

theorem phase_of_active {s : State} (h : s.Active) : phase s = .active := (phase_eq_active_iff s).mpr h.symm

theorem phase_raise (f : FaultCause) (s : State) : phase (raise f s) = .halt := by
  cases f <;> rfl

theorem hasResult_finalizeMessage {s : State} (h : s.Active) : (finalizeMessage s).HasResult :=
  ⟨finalizeMessage_finalized s, (finalizeMessage_fault s).trans h.1⟩

/-- Settles O22: a row of the table fixes the step's outcome, whose phase follows from `finalized` and `fault`. -/
theorem phaseTable : Obligations.PhaseTable := by
  intro s
  refine ⟨phase_eq_active_iff s, phase_eq_done_iff s, phase_eq_halt_iff s,
    fun h => status_of_active (active_of_phase h), fun h => status_of_hasResult (hasResult_of_phase h),
    fun rest hin => ⟨_, step_reset hin, rfl, isFresh_hardwareReset _⟩, fun w rest hin => ?_⟩
  obtain ⟨t, ht⟩ := step_completes s
  refine ⟨t, ht, fun h => ?_, fun h hd => ?_, fun h hd => ?_, fun h hd => ?_,
    fun b hd => ⟨fun h => ?_, fun h => ?_⟩, fun hd => ⟨fun h => ?_, fun h => ?_⟩⟩
  · obtain rfl := eq_of_next_eq ht (step_beat_of_halted ((phase_eq_halt_iff s).mp h) hin)
    exact ⟨h, rfl⟩
  · obtain rfl := eq_of_next_eq ht ((step_illegal hin hd).trans (rejectBeat_of_running (running_of_phase h)))
    exact ⟨phase_raise _ _, rfl⟩
  · obtain rfl := eq_of_next_eq ht ((step_command hin hd).trans (execNop_eq _))
    rfl
  · have hrun : (consumed rest s).fault = 0 := running_of_phase h
    obtain rfl := eq_of_next_eq ht ((step_command hin hd).trans (execInit_of_running hrun))
    exact ⟨phase_of_active ⟨hrun, rfl⟩, isFresh_fresh _⟩
  · have hact : (consumed rest s).Active := active_of_phase h
    obtain rfl := eq_of_next_eq ht ((step_command hin hd).trans (execAbsorb_of_active b hact))
    exact phase_of_active (active_absorbByte hact b)
  · obtain ⟨hfin, hrun⟩ := hasResult_of_phase h
    obtain rfl := eq_of_next_eq ht ((step_command hin hd).trans (execAbsorb_of_finalized b hrun hfin))
    exact ⟨phase_raise _ _, rfl⟩
  · have hact : (consumed rest s).Active := active_of_phase h
    obtain rfl := eq_of_next_eq ht ((step_command hin hd).trans (execFinalize_of_active hact))
    exact (phase_eq_done_iff _).mpr (hasResult_finalizeMessage hact)
  · obtain ⟨hfin, hrun⟩ := hasResult_of_phase h
    obtain rfl := eq_of_next_eq ht ((step_command hin hd).trans (execFinalize_of_finalized hrun hfin))
    exact ⟨phase_raise _ _, rfl⟩

end Sys2Proof.Machine
end

section
/-! PROOFS. The family of 42_commands.md, second part: FINALIZE completes (R146 to R148), the padded message (R149) and
the whole session (R149, R151). What FINALIZE compresses and leaves in the buffer are cuts of the padded tail, whose
bytes are known one by one. -/

namespace Sys2Proof.Machine

/-! ### The buffer and the outputs after FINALIZE (42_commands.md R146, R147) -/

/-- The last block of the padded tail stays in the buffer. -/
theorem bufRead_finalizeMessage {s : State} (hm : s.blockBuffer.wf = true) (a : Fin 64) :
    bufRead (finalizeMessage s).blockBuffer a = (paddedTail s).getD ((paddedTail s).length - 64 + a.val) 0 := by
  have hlen := length_paddedTail s
  rw [← getElem_bufBlock _ _ a.isLt]
  by_cases h : s.blockFill.toNat ≤ 55
  · rw [if_pos h] at hlen
    rw [finalizeMessage_short h, padDone_blockBuffer, padFlush_blockBuffer, getElem_congr_coll (bufBlock_onePad hm h),
      getElem_blockOfBytes, hlen, Nat.sub_self, Nat.zero_add]
  · rw [if_neg h] at hlen
    rw [finalizeMessage_long h, padDone_blockBuffer, padFlush_blockBuffer, getElem_congr_coll (bufBlock_secondPad hm h),
      getElem_blockOfBytes, hlen, List.getD_eq_getElem?_getD, List.getElem?_drop, List.getD_eq_getElem?_getD]

/-- The last eight bytes of the padded tail are the length field. -/
theorem bufRead_finalizeMessage_length {s : State} (hm : s.blockBuffer.wf = true) (k : Fin 8) :
    bufRead (finalizeMessage s).blockBuffer ⟨56 + k.val, by omega⟩ =
      (lengthField s).extractLsb' (56 - 8 * k.val) 8 := by
  have hlen : s.blockFill.toNat ≤ 55 ∧ (paddedTail s).length = 64 ∨ (paddedTail s).length = 128 := by
    rw [length_paddedTail]
    split
    · exact .inl ⟨‹_›, rfl⟩
    · exact .inr rfl
  have hlt := s.blockFill.isLt
  rw [bufRead_finalizeMessage hm]
  dsimp only
  rw [getD_paddedTail s (by omega), if_neg (by omega), if_neg (by omega), if_neg (by omega)]
  congr 1
  omega

theorem sameOutside_finalizeMessage (s : State) : s.SameOutside (finalizeMessage s) :=
  ⟨finalizeMessage_input s, finalizeMessage_digestDraw s⟩

theorem digest_of_hasResult {s : State} (h : s.HasResult) : digest s = digestOfWords s.state :=
  if_pos (by simp [digestValid, h.1, h.2])

/-- Settles O9: the padded tail is one block, its bytes cut at the marker and at the length field. -/
theorem finalizeOneBlock : Obligations.FinalizeOneBlock := by
  intro s hact hm hfill
  have hlen : (paddedTail s).length = 64 := (length_paddedTail s).trans (if_pos hfill)
  have hres := hasResult_finalizeMessage hact
  refine ⟨finalizeMessage s, blockOfBytes (paddedTail s), execFinalize_of_active hact, fun i => ?_, ?_, fun i => ?_,
    finalizeMessage_blockFill s, finalizeMessage_totalLength s, hres.1, hres.2, status_of_hasResult hres,
    digest_of_hasResult hres, sameOutside_finalizeMessage s⟩
  · rw [getElem_blockOfBytes, getD_paddedTail s (by omega), hlen, bufRead, lengthField]
    simp only [show i.val + 8 < 64 ↔ i.val < 56 by omega]
  · rw [finalizeMessage_state hm, process_of_block _ hlen]
  · rw [bufRead_finalizeMessage hm, getElem_blockOfBytes, hlen, Nat.sub_self, Nat.zero_add]

/-- Settles O10: the padded tail is two blocks, the first cut at the marker, the second at the length field. -/
theorem finalizeTwoBlocks : Obligations.FinalizeTwoBlocks := by
  intro s hact hm hfill
  have hlen : (paddedTail s).length = 128 := (length_paddedTail s).trans (if_neg (by omega))
  have hlt := s.blockFill.isLt
  have hres := hasResult_finalizeMessage hact
  have hsecond (i : Fin 64) : (blockOfBytes ((paddedTail s).drop 64))[i.val] = (paddedTail s).getD (64 + i.val) 0 := by
    simp [List.getD_eq_getElem?_getD]
  refine ⟨finalizeMessage s, blockOfBytes (paddedTail s), blockOfBytes ((paddedTail s).drop 64),
    execFinalize_of_active hact, fun i => ?_, fun i => ?_, ?_, fun i => ?_, finalizeMessage_blockFill s,
    finalizeMessage_totalLength s, hres.1, hres.2, status_of_hasResult hres, digest_of_hasResult hres,
    sameOutside_finalizeMessage s⟩
  · rw [getElem_blockOfBytes, getD_paddedTail s (by omega), hlen, if_pos (c := i.val + 8 < 128) (by omega)]
    rfl
  · rw [hsecond, getD_paddedTail s (by omega), hlen, if_neg (by omega), if_neg (by omega), lengthField]
    simp only [show 64 + i.val + 8 < 128 ↔ i.val < 56 by omega, show 128 - 1 - (64 + i.val) = 63 - i.val by omega]
  · rw [finalizeMessage_state hm, process, blocksOf_two hlen, processBlocks_pair]
  · rw [bufRead_finalizeMessage hm, hsecond, hlen]

/-- Settles O11: the padded tail is what both paths compress. -/
theorem finalizeCompressesPaddedTail : Obligations.FinalizeCompressesPaddedTail := fun s hact hm =>
  ⟨finalizeMessage s, execFinalize_of_active hact, finalizeMessage_state hm, length_paddedTail s⟩

/-! ### The length field (42_commands.md R148) -/

theorem toNat_lengthField (s : State) : (lengthField s).toNat = s.totalLength.toNat * 8 % 2 ^ 64 := by
  rw [lengthField, BitVec.toNat_mul]
  rfl

/-- Settles O12: MemRead takes back the big-endian bytes that PAD_LEN has left at the end of the last block. -/
theorem lengthFieldIsBitLength : Obligations.LengthFieldIsBitLength := by
  refine ⟨fun s => ⟨toNat_lengthField s, fun hlt => ?_⟩, fun s hact hm =>
    ⟨finalizeMessage s, execFinalize_of_active hact, memRead_of_bigEndian_bytes _ fun k => ?_, fun k => ?_⟩⟩
  · rw [toNat_lengthField, Nat.mod_eq_of_lt]
    rw [Config.maxLen] at hlt
    omega
  · have hexp : 8 * (8 - 1 - k.val) = 56 - 8 * k.val := by omega
    rw [bufRead_finalizeMessage_length hm k, hexp]
  · rw [bufRead_finalizeMessage_length hm k, getD_be64Bytes _ k.isLt]

/-! ### The padded message (42_commands.md R149) -/

theorem length_paddedMessage (msg : List Byte) :
    (paddedMessage msg).length = msg.length + ((119 - msg.length % 64) % 64 + 9) := by
  rw [paddedMessage, List.length_append, length_padding]

theorem getElem?_paddedMessage (msg : List Byte) {k : Nat} (h : msg.length ≤ k)
    (hk : k < (paddedMessage msg).length) :
    (paddedMessage msg)[k]? =
      some ((padding msg.length (BitVec.ofNat 64 (8 * msg.length))).getD (k - msg.length) 0) := by
  have hpad := length_padding msg.length (BitVec.ofNat 64 (8 * msg.length))
  have hlen := length_paddedMessage msg
  rw [paddedMessage, List.getElem?_append_right h, List.getD_eq_getElem _ _ (by omega), List.getElem?_eq_getElem]

/-- A byte of the bit length, which fits 64 bits below 2^61 bytes. -/
theorem extractLsb'_bitLength {n : Nat} (h : n < Config.maxLen) (k : Fin 8) :
    (BitVec.ofNat 64 (8 * n)).extractLsb' (56 - 8 * k.val) 8 = BitVec.ofNat 8 (8 * n / 256 ^ (7 - k.val)) := by
  have hfit : 8 * n < 2 ^ 64 := by rw [Config.maxLen] at h; omega
  have hexp : 56 - 8 * k.val = 8 * (7 - k.val) := by omega
  refine BitVec.eq_of_toNat_eq ?_
  rw [BitVec.extractLsb'_toNat, BitVec.toNat_ofNat, BitVec.toNat_ofNat, Nat.mod_eq_of_lt hfit,
    Nat.shiftRight_eq_div_pow, hexp, pow_mul]
  rfl

/-- Settles O29: the padding byte by byte, its length by the two sides of `|M| mod 64 ≤ 55`. -/
theorem paddedMessageIsWholeBlocks : Obligations.PaddedMessageIsWholeBlocks := by
  intro msg hmax
  have hlen := length_paddedMessage msg
  refine ⟨?_, ?_, fun k hlow hhigh => ?_, fun k => ?_⟩
  · rw [hlen]
    split <;> omega
  · rw [paddedMessage, List.take_length_add_append]
    rfl
  · rw [getElem?_paddedMessage msg (by omega) (by omega), getD_padding, if_neg (by omega), if_pos (by omega)]
  · rw [getElem?_paddedMessage msg (by omega) (by omega), getD_padding, if_neg (by omega), if_neg (by omega),
      getD_be64Bytes _ (by omega), ← extractLsb'_bitLength hmax]
    congr 3; omega

/-! ### The whole session (42_commands.md R149, R151) -/

theorem runSteps_add {m : Nat} {s t : State} (n : Nat) (h : runSteps m s = .next t) :
    runSteps (m + n) s = runSteps n t := by
  induction m generalizing s with
  | zero =>
    obtain rfl : s = t := eq_of_next_eq rfl h
    rw [Nat.zero_add]
  | succ m ih =>
    obtain ⟨u, hu⟩ := step_completes s
    rw [runSteps_succ m hu] at h
    rw [Nat.succ_add, runSteps_succ _ hu, ih h]

theorem wf_absorbAll (data : List Byte) {s : State} (hm : s.blockBuffer.wf = true) :
    (absorbAll data s).blockBuffer.wf = true := by
  induction data generalizing s with
  | nil => exact hm
  | cons b data ih => exact ih (wf_absorbByte hm b)

theorem tracks_absorbAll (data : List Byte) {s : State} {msg : List Byte} (hm : s.blockBuffer.wf = true)
    (h : s.Tracks msg) : (absorbAll data s).Tracks (msg ++ data) := by
  induction data generalizing s msg with
  | nil => rwa [List.append_nil]
  | cons b data ih =>
    rw [List.append_cons]
    exact ih (wf_absorbByte hm b) (tracks_absorbByte hm h b)

/-- The beat of INIT begins a session: the message that is tracked is empty. -/
theorem step_init_tracks {s : State} {rest : List Event} (hrun : s.fault = 0)
    (hin : s.input = .beat (encode .init) :: rest) :
    ∃ t, step s = .next t ∧ t.blockBuffer.wf = true ∧ t.Tracks [] ∧ t.input = rest :=
  ⟨_, (step_command hin (decode_encode .init rfl)).trans (execInit_of_running hrun), rfl,
    tracks_nil (isFresh_fresh _) hrun, rfl⟩

/-- The beats of UPDATE append their bytes to the message that is tracked. -/
theorem runSteps_updateCommands_tracks (data : List Byte) {s : State} {msg : List Byte} {rest : List Event}
    (hm : s.blockBuffer.wf = true) (h : s.Tracks msg) (hin : s.input = beatsOf (updateCommands data) ++ rest) :
    ∃ t, runSteps data.length s = .next t ∧ t.blockBuffer.wf = true ∧ t.Tracks (msg ++ data) ∧ t.input = rest :=
  ⟨_, runSteps_updateCommands data h.1 hin, wf_absorbAll data hm, tracks_absorbAll data hm h, rfl⟩

/-- The beat of FINALIZE ends a session: the message that is tracked is hashed. -/
theorem step_finalize_of_tracks {s : State} {msg : List Byte} {rest : List Event} (hm : s.blockBuffer.wf = true)
    (h : s.Tracks msg) (hin : s.input = .beat (encode .finalize) :: rest) :
    ∃ t, step s = .next t ∧ t.HasResult ∧ t.state = process tableH (paddedMessage msg) ∧ t.input = rest :=
  have ⟨hact, _⟩ := h
  ⟨_, (step_command hin (decode_encode .finalize rfl)).trans (execFinalize_of_active hact),
    hasResult_finalizeMessage hact, finalizeMessage_state_of_tracks (s := consumed rest s) hm h,
    finalizeMessage_input _⟩

/-- Settles O28: a session is its three parts run one after another. -/
theorem sessionHashesMessage : Obligations.SessionHashesMessage := by
  intro s msg rest hrun _ _ hin
  have hbeats : s.input =
      .beat (encode .init) :: (beatsOf (updateCommands msg) ++ .beat (encode .finalize) :: rest) := by
    simp [hin, beatsOf_hashCommands, encode]
  obtain ⟨t, hinit, hmt, htracks, ht⟩ := step_init_tracks hrun hbeats
  obtain ⟨u, hupdate, hmu, hmsg, hu⟩ := runSteps_updateCommands_tracks msg hmt htracks ht
  obtain ⟨v, hfinal, hres, hstate, hv⟩ := step_finalize_of_tracks hmu hmsg hu
  refine ⟨v, ?_, hres, hstate, ?_, hv⟩
  · rw [runSteps_succ _ hinit, runSteps_add 1 hupdate, runSteps_succ 0 hfinal]
    rfl
  · rw [digest_of_hasResult hres, hstate]
    rfl

end Sys2Proof.Machine
end

section
/-! PROOFS. The family of 42_commands.md, third part: UPDATE (R144, R145). Taking data in has the same meaning in the
burst form and in the wire form: the bytes follow the live ones, whole blocks are processed and the bytes after them
become the live ones. Taking in `x` and then `y` is taking in `x ++ y`, so the phases of R144 and the pieces of a
partition compose. -/

namespace Sys2Proof.Machine

/-! ### The bytes after the last whole block (41_compression.md R128) -/

/-- The bytes that PROCESS leaves over: those after the last whole block. -/
def leftover (x : List Byte) : List Byte := x.drop (x.length - x.length % 64)

@[simp] theorem length_leftover (x : List Byte) : (leftover x).length = x.length % 64 := by
  rw [leftover, List.length_drop]
  have := Nat.mod_le x.length 64
  omega

theorem leftover_of_short {x : List Byte} (h : x.length < 64) : leftover x = x := by
  rw [leftover, Nat.mod_eq_of_lt h, Nat.sub_self, List.drop_zero]

theorem leftover_of_whole {x : List Byte} (h : x.length % 64 = 0) : leftover x = [] :=
  List.eq_nil_of_length_eq_zero (by rw [length_leftover, h])

/-- What is left over when more bytes follow depends on what was left over before them. -/
theorem leftover_append (x y : List Byte) : leftover (leftover x ++ y) = leftover (x ++ y) := by
  have hle := Nat.mod_le x.length 64
  rw [leftover, leftover, leftover, ← List.drop_append_of_le_length (Nat.sub_le _ _), List.drop_drop,
    List.length_drop, List.length_append]
  congr 1
  omega

theorem process_of_short (x : HashWords) {bytes : List Byte} (h : bytes.length < 64) : process x bytes = x := by
  rw [process, blocksOf_short h, processBlocks_nil]

/-- PROCESS goes on with the bytes left over. -/
theorem process_leftover_append (x : HashWords) (bytes more : List Byte) :
    process (process x bytes) (leftover bytes ++ more) = process x (bytes ++ more) := by
  have hwhole : (bytes.take (bytes.length - bytes.length % 64)).length % 64 = 0 := by
    rw [List.length_take]; omega
  rw [← process_take_whole_blocks x bytes, ← process_append _ _ hwhole, ← List.append_assoc, leftover,
    List.take_append_drop]

/-! ### Taking data in (42_commands.md R143 to R145) -/

/-- `t` is `s` with `data` taken in, up to dead bytes and the count: the live bytes and the data are processed in whole
blocks, and what is left over is live. -/
structure TakesIn (data : List Byte) (s t : State) : Prop where
  canonical : t.blockBuffer.wf = true
  state : t.state = process s.state (liveBytes s ++ data)
  live : liveBytes t = leftover (liveBytes s ++ data)
  finalized : t.finalized = s.finalized
  fault : t.fault = s.fault
  outside : s.SameOutside t

variable {s t u : State}

theorem TakesIn.active {data : List Byte} (h : TakesIn data s t) (hact : s.Active) : t.Active :=
  ⟨h.fault.trans hact.1, h.finalized.trans hact.2⟩

theorem takesIn_nil (hm : s.blockBuffer.wf = true) : TakesIn [] s s where
  canonical := hm
  state := (process_of_short _ (by simpa using s.blockFill.isLt)).symm
  live := by rw [List.append_nil, leftover_of_short (by simpa using s.blockFill.isLt)]
  finalized := rfl
  fault := rfl
  outside := ⟨rfl, rfl⟩

theorem TakesIn.append {x y : List Byte} (hx : TakesIn x s t) (hy : TakesIn y t u) : TakesIn (x ++ y) s u where
  canonical := hy.canonical
  state := by rw [hy.state, hx.state, hx.live, process_leftover_append, List.append_assoc]
  live := by rw [hy.live, hx.live, leftover_append, List.append_assoc]
  finalized := hy.finalized.trans hx.finalized
  fault := hy.fault.trans hx.fault
  outside := ⟨hy.outside.1.trans hx.outside.1, hy.outside.2.trans hx.outside.2⟩

/-- Data taken in twice from one state gives states that agree up to dead bytes, where the counts agree. -/
theorem TakesIn.agreeUpToDead {data : List Byte} (ht : TakesIn data s t) (hu : TakesIn data s u)
    (hcount : t.totalLength = u.totalLength) : t.AgreeUpToDead u := by
  have hlive : liveBytes t = liveBytes u := ht.live.trans hu.live.symm
  have hfill : t.blockFill = u.blockFill :=
    BitVec.eq_of_toNat_eq (by rw [← length_liveBytes, ← length_liveBytes, hlive])
  exact ⟨ht.state.trans hu.state.symm, hcount, hfill, ht.finalized.trans hu.finalized.symm,
    ht.fault.trans hu.fault.symm, hlive, hu.outside.1.trans ht.outside.1.symm, hu.outside.2.trans ht.outside.2.symm⟩

/-! ### The wire form (42_commands.md R143) -/

theorem takesIn_absorbByte (hm : s.blockBuffer.wf = true) (b : Byte) : TakesIn [b] s (absorbByte b s) where
  canonical := wf_absorbByte hm b
  state := absorbByte_state_eq_process hm b
  live := by
    have hlt := s.blockFill.isLt
    have hlen : (liveBytes s ++ [b]).length = s.blockFill.toNat + 1 := by simp
    rw [liveBytes_absorbByte_eq_ite hm]
    split
    · rw [leftover_of_whole (by omega)]
    · rw [leftover_of_short (by omega)]
  finalized := absorbByte_finalized b s
  fault := absorbByte_fault b s
  outside := sameOutside_absorbByte b s

theorem takesIn_absorbAll (data : List Byte) (hm : s.blockBuffer.wf = true) : TakesIn data s (absorbAll data s) := by
  induction data generalizing s with
  | nil => exact takesIn_nil hm
  | cons b data ih => exact (takesIn_absorbByte hm b).append (ih (wf_absorbByte hm b))

theorem absorbAll_totalLength (data : List Byte) (s : State) :
    (absorbAll data s).totalLength = s.totalLength + BitVec.ofNat 64 data.length := by
  induction data generalizing s with
  | nil => exact (BitVec.add_zero _).symm
  | cons b data ih =>
    rw [absorbAll, List.foldl_cons, ← absorbAll, ih, absorbByte_totalLength, List.length_cons, Nat.add_comm,
      BitVec.ofNat_add, BitVec.add_assoc]
    rfl

/-! ### The phases of the burst form (42_commands.md R144) -/

/-- A run of writes from `block_fill` on puts its bytes after the live ones. -/
theorem bufRead_storeRun_fill (hm : s.blockBuffer.wf = true) {bytes : List Byte}
    (hfit : s.blockFill.toNat + bytes.length ≤ 64) {a : Fin 64} (ha : a.val < s.blockFill.toNat + bytes.length) :
    bufRead (storeRun s.blockBuffer s.blockFill.toNat bytes) a = (liveBytes s ++ bytes).getD a.val 0 := by
  rw [bufRead_storeRun hm _ _ hfit]
  split
  · rw [List.getD_append_right _ _ _ _ (by simp; omega), length_liveBytes]
  · rw [List.getD_append _ _ _ _ (by simp; omega), liveBytes_getD s a (by omega)]

/-- The bytes that fit below the end of the buffer, stored as phases 1 and 3 store them. -/
theorem takesIn_storeRun (hm : s.blockBuffer.wf = true) {bytes : List Byte}
    (hfit : s.blockFill.toNat + bytes.length < 64) :
    TakesIn bytes s { s with
      blockBuffer := storeRun s.blockBuffer s.blockFill.toNat bytes
      blockFill := BitVec.ofNat 6 (s.blockFill.toNat + bytes.length) } where
  canonical := wf_storeRun hm _ _
  state := (process_of_short _ (by simpa using hfit)).symm
  live := by
    rw [leftover_of_short (by simpa using hfit)]
    refine List.ext_getElem (by simp; omega) fun a ha hb => ?_
    rw [List.length_append, length_liveBytes] at hb
    rw [getElem_liveBytes, ← List.getD_eq_getElem _ 0]
    exact bufRead_storeRun_fill hm hfit.le (a := ⟨a, by omega⟩) hb
  finalized := rfl
  fault := rfl
  outside := ⟨rfl, rfl⟩

/-- The bytes that complete the pending buffer, stored and flushed as phase 1 does. -/
theorem takesIn_flush (hm : s.blockBuffer.wf = true) {bytes : List Byte}
    (hfull : s.blockFill.toNat + bytes.length = 64) :
    TakesIn bytes s { compressBuffer { s with
      blockBuffer := storeRun s.blockBuffer s.blockFill.toNat bytes } with blockFill := 0 } where
  canonical := wf_storeRun hm _ _
  state := by
    have hlen : (liveBytes s ++ bytes).length = 64 := by simpa using hfull
    rw [process_of_block _ hlen, ← bufBlock_eq_blockOfBytes fun a => bufRead_storeRun_fill hm hfull.le (by omega)]
    rfl
  live := by
    rw [leftover_of_whole (by simp [hfull])]
    exact liveBytes_of_fill_zero rfl
  finalized := rfl
  fault := rfl
  outside := ⟨rfl, rfl⟩

/-- Phase 1 with an empty buffer: nothing is pending. -/
theorem updatePhase1_of_empty (data : List Byte) (h : s.blockFill.toNat = 0) : updatePhase1 data s = (0, s) :=
  if_pos h

/-- Phase 1 with too few data to complete the pending buffer. -/
theorem updatePhase1_of_fits {data : List Byte} (h : s.blockFill.toNat ≠ 0)
    (hfit : s.blockFill.toNat + data.length < 64) :
    updatePhase1 data s = (data.length, { s with
      blockBuffer := storeRun s.blockBuffer s.blockFill.toNat data
      blockFill := BitVec.ofNat 6 (s.blockFill.toNat + data.length) }) := by
  have hmin : min (64 - s.blockFill.toNat) data.length = data.length := by omega
  simp [updatePhase1, h, hmin, hfit.ne]

/-- Phase 1 with enough data to complete the pending buffer. -/
theorem updatePhase1_of_completes {data : List Byte} (h : s.blockFill.toNat ≠ 0)
    (hfull : 64 ≤ s.blockFill.toNat + data.length) :
    updatePhase1 data s = (64 - s.blockFill.toNat, { compressBuffer { s with
      blockBuffer := storeRun s.blockBuffer s.blockFill.toNat (data.take (64 - s.blockFill.toNat)) } with
      blockFill := 0 }) := by
  have hlt := s.blockFill.isLt
  have hmin : min (64 - s.blockFill.toNat) data.length = 64 - s.blockFill.toNat := by omega
  have hsum : s.blockFill.toNat + (64 - s.blockFill.toNat) = 64 := by omega
  simp [updatePhase1, h, hmin, hsum]

/-- Phase 1 takes in the data up to the read position, and when it leaves any it leaves the buffer empty. -/
theorem takesIn_updatePhase1 (data : List Byte) (hm : s.blockBuffer.wf = true) :
    TakesIn (data.take (updatePhase1 data s).1) s (updatePhase1 data s).2 ∧
      (data.drop (updatePhase1 data s).1 = [] ∨ (updatePhase1 data s).2.blockFill = 0) := by
  by_cases hempty : s.blockFill.toNat = 0
  · rw [updatePhase1_of_empty data hempty]
    exact ⟨takesIn_nil hm, .inr (BitVec.eq_of_toNat_eq hempty)⟩
  by_cases hfit : s.blockFill.toNat + data.length < 64
  · rw [updatePhase1_of_fits hempty hfit, List.take_length, List.drop_length]
    exact ⟨takesIn_storeRun hm hfit, .inl rfl⟩
  · rw [updatePhase1_of_completes hempty (by omega)]
    refine ⟨takesIn_flush hm ?_, .inr rfl⟩
    have hlt := s.blockFill.isLt
    rw [List.length_take]
    omega

theorem takesIn_updatePhase2 (rest : List Byte) (hm : s.blockBuffer.wf = true) (h : s.blockFill = 0) :
    TakesIn (rest.take (64 * (rest.length / 64))) s (updatePhase2 rest s) where
  canonical := hm
  state := by
    rw [liveBytes_of_fill_zero h, List.nil_append, process, blocksOf_take]
    rfl
  live := by
    have hwhole : (rest.take (64 * (rest.length / 64))).length % 64 = 0 := by rw [List.length_take]; omega
    rw [liveBytes_of_fill_zero h, List.nil_append, leftover_of_whole hwhole]
    exact liveBytes_of_fill_zero h
  finalized := rfl
  fault := rfl
  outside := ⟨rfl, rfl⟩

theorem takesIn_updatePhase3 {rest : List Byte} (hm : s.blockBuffer.wf = true) (h : s.blockFill = 0)
    (hlt : rest.length < 64) : TakesIn rest s (updatePhase3 rest s) := by
  rw [updatePhase3]
  split
  · subst_vars
    exact takesIn_nil hm
  · simpa [h] using takesIn_storeRun hm (bytes := rest) (by simpa [h] using hlt)

theorem updatePhase2_nil (s : State) : updatePhase2 [] s = s := by
  rw [updatePhase2, process_of_short _ (by decide)]

theorem updatePhase3_nil (s : State) : updatePhase3 [] s = s := if_pos rfl

/-- Phases 2 and 3 take in what phase 1 has left. -/
theorem takesIn_updatePhases23 {rest : List Byte} (hm : s.blockBuffer.wf = true) (h : rest = [] ∨ s.blockFill = 0) :
    TakesIn rest s (updatePhase3 (rest.drop (64 * (rest.length / 64))) (updatePhase2 rest s)) := by
  obtain rfl | hfill := h
  · rw [List.drop_nil, updatePhase3_nil, updatePhase2_nil]
    exact takesIn_nil hm
  · have hblocks := takesIn_updatePhase2 rest hm hfill
    have hrest := takesIn_updatePhase3 (rest := rest.drop (64 * (rest.length / 64))) hblocks.canonical hfill
      (by rw [List.length_drop]; omega)
    simpa only [List.take_append_drop] using hblocks.append hrest

/-- The count is no part of what is taken in, so it may be moved on first. -/
theorem TakesIn.of_counted {data : List Byte} {n : BitVec 64} (h : TakesIn data { s with totalLength := n } t) :
    TakesIn data s t :=
  ⟨h.canonical, h.state, h.live, h.finalized, h.fault, h.outside⟩

theorem takesIn_updateBurst (data : List Byte) (hm : s.blockBuffer.wf = true) :
    TakesIn data s (updateBurst data s) := by
  obtain ⟨hpending, hempty⟩ :=
    takesIn_updatePhase1 data (s := { s with totalLength := s.totalLength + BitVec.ofNat 64 data.length }) hm
  have hall := hpending.append (takesIn_updatePhases23 hpending.canonical hempty)
  rw [List.take_append_drop] at hall
  exact hall.of_counted

theorem updatePhase1_totalLength (data : List Byte) (s : State) :
    (updatePhase1 data s).2.totalLength = s.totalLength := by
  by_cases hempty : s.blockFill.toNat = 0
  · rw [updatePhase1_of_empty data hempty]
  by_cases hfit : s.blockFill.toNat + data.length < 64
  · rw [updatePhase1_of_fits hempty hfit]
  · rw [updatePhase1_of_completes hempty (by omega)]
    rfl

theorem updatePhase3_totalLength (rest : List Byte) (s : State) :
    (updatePhase3 rest s).totalLength = s.totalLength := by
  rw [updatePhase3]
  split <;> rfl

theorem updateBurst_totalLength (data : List Byte) (s : State) :
    (updateBurst data s).totalLength = s.totalLength + BitVec.ofNat 64 data.length := by
  rw [updateBurst, updatePhase3_totalLength, updatePhase2, updatePhase1_totalLength]

theorem updateBurst_nil (s : State) : updateBurst [] s = s := by
  have hphase1 : updatePhase1 [] s = (0, s) := by
    by_cases hempty : s.blockFill.toNat = 0
    · exact updatePhase1_of_empty [] hempty
    · simp [updatePhase1_of_fits (data := []) hempty s.blockFill.isLt, storeRun]
  simp [updateBurst, hphase1, updatePhase2_nil, updatePhase3_nil]

/-! ### UPDATE as one operation (42_commands.md R144, R145) -/

theorem execUpdate_of_active (data : List Byte) (h : s.Active) : execUpdate data s = .next (updateBurst data s) := by
  rw [execUpdate, unlessHalted_of_running h.1, unlessFinalized_of_accepting h.2]

/-- Settles O35: both forms take the data in and count every byte of it. -/
theorem burstEqualsWireForm : Obligations.BurstEqualsWireForm := by
  intro data s hact hm
  have hburst := takesIn_updateBurst data hm
  refine ⟨updateBurst data s, execUpdate_of_active data hact,
    hburst.agreeUpToDead (takesIn_absorbAll data hm) ?_, hburst.state, by simp⟩
  rw [updateBurst_totalLength, absorbAll_totalLength]

/-- Settles O37: both ways take in `x ++ y` and count every byte of it. -/
theorem partitionInsensitive : Obligations.PartitionInsensitive := by
  intro x y s hact hm
  have hx := takesIn_updateBurst x hm
  have hy := takesIn_updateBurst y hx.canonical
  refine ⟨_, _, _, execUpdate_of_active x hact, execUpdate_of_active y (hx.active hact),
    execUpdate_of_active (x ++ y) hact, (hx.append hy).agreeUpToDead (takesIn_updateBurst (x ++ y) hm) ?_⟩
  simp only [updateBurst_totalLength, List.length_append, BitVec.ofNat_add, BitVec.add_assoc]

/-- Settles O38: the two entry tests, and an update of no bytes, whose phases have nothing to do. -/
theorem updateEntryAndEmpty : Obligations.UpdateEntryAndEmpty := by
  refine fun data s => ⟨fun hhalt => unlessHalted_of_halted hhalt _, fun hrun hfin => ?_, fun hact => ?_⟩
  · rw [execUpdate, unlessHalted_of_running hrun, unlessFinalized_of_finalized hfin]
    rfl
  · rw [execUpdate_of_active [] hact, updateBurst_nil]

end Sys2Proof.Machine
end

section
/-! PROOFS. The family of 60_exceptions.md. A running engine latches the code of the fault it meets: 2 on a reserved beat
(R172), 1 on ABSORB or FINALIZE once finalized (R171), and in every other case `fault` stays 0. A halted engine discards
whatever it is given (R174). -/

namespace Sys2Proof.Machine

/-! ### The two causes (60_exceptions.md R170) -/

/-- The commands that test `finalized` at entry (42_commands.md R140 line 4). -/
abbrev ChecksFinalized (i : Instr) : Prop := i = .finalize ∨ ∃ b, i = .absorb b

/-- The cause of IllegalBeat in a running engine (R172). -/
abbrev State.ReservedNext (s : State) : Prop :=
  ∃ w rest, s.input = .beat w :: rest ∧ Beat.reserved w = true

/-- The cause of UseAfterFinalize in a running engine (R171). -/
abbrev State.MisuseNext (s : State) : Prop :=
  s.finalized = true ∧ ∃ w rest i, s.input = .beat w :: rest ∧ decode w = .command i ∧ ChecksFinalized i

theorem exec_of_finalized {i : Instr} {s : State} (hi : ChecksFinalized i) (hrun : s.fault = 0#2)
    (hfin : s.finalized = true) : exec i s = .next (raise .useAfterFinalize s) := by
  obtain rfl | ⟨b, rfl⟩ := hi
  · exact execFinalize_of_finalized hrun hfin
  · exact execAbsorb_of_finalized b hrun hfin

/-- UseAfterFinalize is the only fault of a command. -/
theorem exec_fault_of_no_misuse {i : Instr} {s t : State} (hrun : s.fault = 0#2)
    (hok : ¬ (s.finalized = true ∧ ChecksFinalized i)) (h : exec i s = .next t) : t.fault = 0#2 := by
  obtain ⟨hhalt, -⟩ | ⟨-, rfl⟩ | ⟨-, -, rfl⟩ | ⟨b, -, -, rfl⟩ | ⟨-, -, rfl⟩ | ⟨hi, -, hfin, -⟩ := exec_cases h
  · exact absurd hrun hhalt
  · exact hrun
  · exact hrun
  · exact (absorbByte_fault b s).trans hrun
  · exact (finalizeMessage_fault s).trans hrun
  · exact absurd ⟨hfin, hi.symm⟩ hok

theorem step_reserved {s : State} {w : Beat} {rest : List Event} (hrun : s.fault = 0#2)
    (hin : s.input = .beat w :: rest) (hw : Beat.reserved w = true) :
    step s = .next (raise .illegalBeat (consumed rest s)) :=
  (step_illegal hin ((reservedBeatsAreIllegal.1 w).mpr hw)).trans (rejectBeat_of_running hrun)

theorem step_fault_of_reserved {s t : State} (hrun : s.fault = 0#2) (hres : s.ReservedNext) (h : step s = .next t) :
    t.fault = 2#2 := by
  obtain ⟨w, rest, hin, hw⟩ := hres
  obtain rfl := eq_of_next_eq h (step_reserved hrun hin hw)
  rfl

theorem step_fault_of_misuse {s t : State} (hrun : s.fault = 0#2) (hmis : s.MisuseNext) (h : step s = .next t) :
    t.fault = 1#2 := by
  obtain ⟨hfin, w, rest, i, hin, hd, hi⟩ := hmis
  obtain rfl := eq_of_next_eq h
    ((step_command hin hd).trans (exec_of_finalized (s := consumed rest s) hi hrun hfin))
  rfl

theorem step_fault_of_no_cause {s t : State} (hrun : s.fault = 0#2) (hres : ¬ s.ReservedNext)
    (hmis : ¬ s.MisuseNext) (h : step s = .next t) : t.fault = 0#2 := by
  obtain ⟨-, rfl⟩ | ⟨e, rest, hin, ⟨-, rfl⟩ | ⟨w, rfl, hd, -⟩ | ⟨w, i, rfl, hd, hexec⟩⟩ := step_cases h
  · exact hrun
  · rfl
  · exact absurd ⟨w, rest, hin, (reservedBeatsAreIllegal.1 w).mp hd⟩ hres
  · exact exec_fault_of_no_misuse (s := consumed rest s) hrun
      (fun ⟨hfin, hi⟩ => hmis ⟨hfin, w, rest, i, hin, hd, hi⟩) hexec

/-- Settles O16: each cause fixes the code, and so does their absence, so each code tells its cause. -/
theorem faultsRaisedExactly : Obligations.FaultsRaisedExactly := by
  intro s t hrun h
  change (t.fault = 2#2 ↔ s.ReservedNext) ∧ (t.fault = 1#2 ↔ s.MisuseNext) ∧ t.fault ≠ 3#2
  have hone := fun hmis => step_fault_of_misuse hrun hmis h
  by_cases hres : s.ReservedNext
  · have htwo := step_fault_of_reserved hrun hres h
    exact ⟨iff_of_true htwo hres, ⟨fun hc => by simp [htwo] at hc, hone⟩, by simp [htwo]⟩
  · by_cases hmis : s.MisuseNext
    · exact ⟨iff_of_false (by simp [hone hmis]) hres, iff_of_true (hone hmis) hmis, by simp [hone hmis]⟩
    · have hzero := step_fault_of_no_cause hrun hres hmis h
      exact ⟨iff_of_false (by simp [hzero]) hres, iff_of_false (by simp [hzero]) hmis, by simp [hzero]⟩

/-! ### What the host sees of a raised fault (60_exceptions.md R173, R175) -/

theorem digestValid_raise (f : FaultCause) (s : State) : digestValid (raise f s) = false := by
  cases f <;> simp [digestValid]

theorem status_raise (f : FaultCause) (s : State) : status (raise f s) = status (flagged s.finalized f.code) :=
  status_eq_status_flagged rfl rfl

theorem status_raise_useAfterFinalize {s : State} (h : s.finalized = true) :
    status (raise .useAfterFinalize s) = 0x07 := by
  rw [status_raise, h]
  rfl

theorem status_raise_illegalBeat (s : State) :
    status (raise .illegalBeat s) = if s.finalized then 0x0B else 0x0A := by
  rw [status_raise]
  cases s.finalized <;> rfl

/-- Settles O13: the two commands that test `finalized` raise the fault, and the other two do not make the test. -/
theorem useAfterFinalizeRaised : Obligations.UseAfterFinalizeRaised := by
  intro i s hrun hfin
  refine ⟨fun hi => ⟨_, exec_of_finalized hi hrun hfin, rfl, digestValid_raise _ s,
    status_raise_useAfterFinalize hfin⟩, ?_⟩
  rintro (rfl | rfl)
  · exact ⟨s, execNop_eq s, hrun⟩
  · exact ⟨fresh s, execInit_of_running hrun, hrun⟩

/-- Settles O14: a reserved beat is rejected, and `finalized`, which the rejection does not write, shows in `status`. -/
theorem illegalBeatRaised : Obligations.IllegalBeatRaised := fun s _ rest hrun hin hw =>
  ⟨_, step_reserved hrun hin hw, rfl, digestValid_raise _ _, status_raise_illegalBeat (consumed rest s)⟩

/-! ### Halted engines (60_exceptions.md R174) -/

/-- Settles O15: the halt test comes first, for a reserved beat as for each command. -/
theorem haltedDiscardsEverything : Obligations.HaltedDiscardsEverything :=
  ⟨fun _ _ _ hhalt hin => ⟨_, step_beat_of_halted hhalt hin, rfl⟩, fun i _ hhalt => exec_of_halted hhalt i⟩

end Sys2Proof.Machine
end

section
/-! PROOFS. The family of 70_reset_and_hazards.md. Reset (R190) and INIT in a running engine (R191) answer one and the
same state, and the fields of a session are not among what it is computed from (R201). The work of a command (R203)
depends on `block_fill` alone. -/

namespace Sys2Proof.Machine

/-! ### Reset and INIT (70_reset_and_hazards.md R190, R191, R201) -/

theorem active_hardwareReset (s : State) : (hardwareReset s).Active := ⟨rfl, rfl⟩

/-- Reset and INIT differ in the one write of `fault`, which is 0 already. -/
theorem fresh_eq_hardwareReset {s : State} (hrun : s.fault = 0#2) : fresh s = hardwareReset s := by
  rw [hardwareReset, fresh, hrun]

/-- No field of the spec's tuple goes into the state after reset. -/
theorem hardwareReset_congr {s t : State} (h : s.SameOutside t) : hardwareReset t = hardwareReset s := by
  obtain ⟨hinput, hdraw⟩ := h
  rw [hardwareReset, hardwareReset, fresh, fresh, hinput, hdraw]

theorem exec_init_of_running {s : State} (hrun : s.fault = 0#2) : exec .init s = .next (hardwareReset s) :=
  (execInit_of_running hrun).trans (congrArg _ (fresh_eq_hardwareReset hrun))

/-- Settles O2: the event is taken, and the state reset leaves is fresh and in phase ACTIVE. -/
theorem resetEventMakesFresh : Obligations.ResetEventMakesFresh := fun s rest hin =>
  have hact := active_hardwareReset (consumed rest s)
  ⟨_, step_reset hin, isFresh_hardwareReset _, hact.1, rfl, phase_of_active hact, status_of_active hact⟩

/-- Settles O3: a running engine executes INIT, a halted one meets the halt test, which reset does not make. -/
theorem resetAndInitAgree : Obligations.ResetAndInitAgree := fun s =>
  ⟨exec_init_of_running, fun hhalt => ⟨exec_of_halted hhalt .init, isFresh_hardwareReset s, hardwareReset_fault s⟩⟩

/-- Settles O5: INIT does in both engines what a reset would, and that reads only the fields in which they agree. -/
theorem nothingSurvivesInit : Obligations.NothingSurvivesInit := fun s t hs ht hsame => by
  refine ⟨hardwareReset s, exec_init_of_running hs, ?_⟩
  rw [exec_init_of_running ht, hardwareReset_congr hsame]

/-! ### Work (70_reset_and_hazards.md R203) -/

/-- The padded tail ends on a block boundary, the first or the second. -/
theorem length_commandBlocks_finalize_eq_ite (s : State) :
    (commandBlocks .finalize s).length = if s.blockFill.toNat ≤ 55 then 1 else 2 := by
  rw [length_commandBlocks_finalize, length_paddedTail]
  split <;> rfl

/-- Settles O32: NOP and INIT have no block, ABSORB has the one it fills, FINALIZE those of the padded tail. -/
theorem workPerCommand : Obligations.WorkPerCommand := fun s b =>
  ⟨rfl, rfl, length_commandBlocks_absorb b s, length_commandBlocks_finalize_eq_ite s⟩

end Sys2Proof.Machine
end
